-- ==== Sys2Proof/Word.lean ====
section
/-! DEFINITION. The bit-vector types of the block: command words, packets, channel levels, bytes. -/

namespace Sys2Proof

/-- An 80-bit command word (R51: `CMD_W` = 80). -/
abbrev Word := BitVec 80

/-- A 32-bit packet (R7: `PKT_W` = 32; R72). -/
abbrev Packet := BitVec 32

/-- A 10-bit channel value, `u10` (R7: `CH_W` = 10; R10). -/
abbrev U10 := BitVec 10

/-- One byte on the serial link (R33). -/
abbrev Byte := BitVec 8

end Sys2Proof
end

