-- ==== Sys2Proof/Config.lean ====
section
/-! DEFINITION. The implementation parameters (R7) as constants without a value, and the free values. -/

namespace Sys2Proof

/-- `PWM_LAYOUT` (R73): the three channels, named from slot `p[29:20]` down to slot `p[9:0]`. `brg` (blue, red, green)
is the decided default. -/
inductive PwmLayout where
  | brg | bgr | rbg | rgb | gbr | grb
  deriving DecidableEq, Repr, Inhabited

/-- The parameter record P (R7, R34). -/
structure Params where
  /-- `MAX_N`, the largest chain length. -/
  maxN : Nat
  /-- `GAMMA_LUT`, the contents of the Gamma Table. -/
  gamma : U10 → U10
  /-- `PWM_LAYOUT`. -/
  layout : PwmLayout
  /-- `SPI_MODE`, clock polarity and clock phase of the transport; no rule reads it. -/
  spiMode : Bool × Bool
  /-- `SPI_CLK_HZ`; no rule reads it. -/
  spiClkHz : Nat
  /-- `LATCH_SETUP_CYCLES`; timing only. -/
  latchSetup : Nat
  /-- `LATCH_HIGH_CYCLES`; timing only. -/
  latchHigh : Nat

/-- What R7 and R70 require of the parameters, and nothing else: the bound on `MAX_N`, P2 and P3 of the gamma table (P1,
size and range, is its type), and at least one latch cycle. -/
structure Params.Valid (P : Params) : Prop where
  maxN_pos : 1 ≤ P.maxN
  maxN_le : P.maxN ≤ 65535
  gamma_mono : ∀ x y : U10, x.toNat ≤ y.toNat → (P.gamma x).toNat ≤ (P.gamma y).toNat
  gamma_zero : P.gamma 0 = 0
  gamma_last : P.gamma 1023 = 1023
  latchHigh_pos : 1 ≤ P.latchHigh

/-- The largest of `f 1`, ..., `f n` (0 when there is none). -/
def runningMax (f : U10 → U10) : Nat → U10
  | 0 => 0
  | n + 1 => if (runningMax f n).toNat ≤ (f (BitVec.ofNat 10 (n + 1))).toNat then f (BitVec.ofNat 10 (n + 1)) else runningMax f n

/-- The table made from arbitrary contents `f` so that P1 to P3 of R70 hold. It leaves a table that has them already as it
is (`gammaTable_of_valid` in Laws/Codec.lean), so an arbitrary `f` gives every table R70 allows and no other. -/
def gammaTable (f : U10 → U10) (x : U10) : U10 :=
  if x = 1023 then 1023 else runningMax f x.toNat

/-- OPEN (R7, D9): `MAX_N` less one. DESIGN CHOICE, log entry 1; safe. -/
opaque Config.maxNLessOne : Fin 65535

/-- OPEN (R7, D8): the gamma table's contents before `gammaTable`. DESIGN CHOICE, log entry 1; safe. -/
opaque Config.gammaContents : U10 → U10

/-- R73, D6: the channel layout. The spec's default `brg` is general knowledge; the model does not fix it. Log entry 2; safe. -/
opaque Config.layout : PwmLayout

/-- OPEN (R7, D18): `SPI_MODE`. -/
opaque Config.spiMode : Bool × Bool

/-- OPEN (R7, D18): `SPI_CLK_HZ`. -/
opaque Config.spiClkHz : Nat

/-- R7, D19: `LATCH_SETUP_CYCLES`. -/
opaque Config.latchSetup : Nat

/-- R7, D19: `LATCH_HIGH_CYCLES` less one. -/
opaque Config.latchHighLessOne : Nat

/-- The parameters of the machine `step` runs. -/
def Config.params : Params where
  maxN := Config.maxNLessOne.val + 1
  gamma := gammaTable Config.gammaContents
  layout := Config.layout
  spiMode := Config.spiMode
  spiClkHz := Config.spiClkHz
  latchSetup := Config.latchSetup
  latchHigh := Config.latchHighLessOne + 1

/-- FREE VALUE (R20, R35, R86, D28, U9): the packet at an index of BUF whose contents are unspecified; the first argument says
which unspecified contents (the counter `freeIx` of State). DESIGN CHOICE, log entry 3; safe. -/
opaque Config.unspecifiedPacket : Nat → Nat → Packet

/-- FREE VALUE (R128(b), U13): whether the transport finishes the byte in transfer when reset comes, applied to `freeIx`.
Log entry 9; safe. -/
opaque Config.byteFinishes : Nat → Bool

/-- FREE VALUE (R128(b), R135, U10): what a module's shift register holds where the spec does not say it: after a byte cut short
by reset, and in a chain whose length is not `NLEN`. Applied to the observer's counter and the module; read by the chain observer
only. Log entries 15 and 20; safe. -/
opaque Config.unknownRegister : Nat → Nat → Packet

/-- FREE VALUE (R128(d), U12): whether a latch pulse cut short by reset latches the modules; read by the chain observer only.
Log entry 15; safe. -/
opaque Config.cutPulseLatches : Nat → Bool

end Sys2Proof
end

