-- ==== Sys2Proof/Syntax.lean ====
section
/-! DEFINITION. The commands, one constructor per row of spec/opcode_table.json. -/

namespace Sys2Proof

/-- A command with its decoded operands (R56, R59): lengths and indexes are unsigned integers, channel inputs signed ones. -/
inductive Instr where
  /-- CONSTRUCT n (0x01) -/
  | construct (n : Nat)
  /-- BEGIN (0x02) -/
  | begin
  /-- SETPX i, r, g, b, gc (0x03) -/
  | setpx (i : Nat) (r g b : Int) (gc : Bool)
  /-- UNSETPX i (0x04) -/
  | unsetpx (i : Nat)
  /-- ALLON r, g, b, gc (0x05) -/
  | allon (r g b : Int) (gc : Bool)
  /-- ALLOFF (0x06) -/
  | alloff
  /-- SHOW (0x07) -/
  | showFrame
  /-- GETPX i (0x08) -/
  | getpx (i : Nat)
  /-- DESTROY (0x09) -/
  | destroy
  /-- STATUS (0x0A) -/
  | status
  deriving DecidableEq, Repr

end Sys2Proof
end

