-- ==== Sys2Proof/WellFormed.lean ====
section
/-! DEFINITION. Which command terms a command word can hold: the operand ranges of R56. -/

namespace Sys2Proof

/-- A chain length or pixel index fits the 16-bit `idx` field (R54: range 0..65535). -/
def fitsIdx (i : Nat) : Bool := decide (i ≤ 65535)

/-- A channel input fits its 16-bit two's-complement field (R55: range -32768..32767). -/
def fitsChannel (x : Int) : Bool := decide (-32768 ≤ x) && decide (x ≤ 32767)

/-- Every operand is in the range its field encodes (R56). -/
def Instr.wellFormed : Instr → Bool
  | .construct n => fitsIdx n
  | .begin => true
  | .setpx i r g b _ => fitsIdx i && fitsChannel r && fitsChannel g && fitsChannel b
  | .unsetpx i => fitsIdx i
  | .allon r g b _ => fitsChannel r && fitsChannel g && fitsChannel b
  | .alloff => true
  | .showFrame => true
  | .getpx i => fitsIdx i
  | .destroy => true
  | .status => true

end Sys2Proof
end

