-- ==== Sys2Proof/Decode.lean ====
section
/-! DEFINITION. The command decoder (R59), total on 80-bit words and rejecting by name; then the encoder (R57, R64) and the
match and mask values of R58. -/

namespace Sys2Proof

/-- Why a word spells no command: its opcode is reserved (R60), or a bit its row lists as "must be zero" is 1 (R61). -/
inductive Illegal where
  | reservedOpcode
  | mustBeZero
  deriving DecidableEq, Repr

/-- The decoder's verdict: a command, or `ILLEGAL` as a verdict of its own (R59). -/
inductive Verdict where
  | cmd (i : Instr)
  | illegal (why : Illegal)
  deriving DecidableEq, Repr

/-- `op = w[79:72]` (R52). -/
def opField (w : Word) : BitVec 8 := w.extractLsb' 72 8

/-- `rsv = w[71:65]` (R53). -/
def rsvField (w : Word) : BitVec 7 := w.extractLsb' 65 7

/-- `gc = w[64]` (R53). -/
def gcField (w : Word) : Bool := w.getLsbD 64

/-- `idx = w[63:48]` (R54). -/
def idxField (w : Word) : BitVec 16 := w.extractLsb' 48 16

/-- `red = w[47:32]` (R55). -/
def redField (w : Word) : BitVec 16 := w.extractLsb' 32 16

/-- `grn = w[31:16]` (R55). -/
def grnField (w : Word) : BitVec 16 := w.extractLsb' 16 16

/-- `blu = w[15:0]` (R55). -/
def bluField (w : Word) : BitVec 16 := w.extractLsb' 0 16

/-- The channel fields are all zero: `w[47:0] = 0`. -/
def noChannels (w : Word) : Bool := redField w == 0 && grnField w == 0 && bluField w == 0

/-- The command if its must-be-zero bits are zero, else illegal (R61). -/
def whenZero (ok : Bool) (i : Instr) : Verdict := if ok then .cmd i else .illegal .mustBeZero

/-- A word whose only operand is `idx`: flags byte and channels must be zero (R57). -/
def idxOnly (w : Word) : Bool := rsvField w == 0 && !gcField w && noChannels w

/-- A word without operands: `w[71:0] = 0` (R57). -/
def noOperands (w : Word) : Bool := idxOnly w && idxField w == 0

/-- `decode` (R59). -/
def decode (w : Word) : Verdict :=
  match (opField w).toNat with
  | 0x01 => whenZero (idxOnly w) (.construct (idxField w).toNat)
  | 0x02 => whenZero (noOperands w) .begin
  | 0x03 => whenZero (rsvField w == 0)
      (.setpx (idxField w).toNat (redField w).toInt (grnField w).toInt (bluField w).toInt (gcField w))
  | 0x04 => whenZero (idxOnly w) (.unsetpx (idxField w).toNat)
  | 0x05 => whenZero (rsvField w == 0 && idxField w == 0)
      (.allon (redField w).toInt (grnField w).toInt (bluField w).toInt (gcField w))
  | 0x06 => whenZero (noOperands w) .alloff
  | 0x07 => whenZero (noOperands w) .showFrame
  | 0x08 => whenZero (idxOnly w) (.getpx (idxField w).toNat)
  | 0x09 => whenZero (noOperands w) .destroy
  | 0x0A => whenZero (noOperands w) .status
  | _ => .illegal .reservedOpcode

/-- The command of a verdict, if there is one. -/
def Verdict.toInstr? : Verdict → Option Instr
  | .cmd i => some i
  | .illegal _ => none

/-- Format C80 (R51): the fields of a command word in order, with `rsv` zero. -/
def packC80 (op : BitVec 8) (gc : Bool) (idx red grn blu : BitVec 16) : Word :=
  op ++ (0#7 ++ (BitVec.ofBool gc ++ (idx ++ (red ++ (grn ++ blu)))))

/-- A length or index as its 16-bit field (R54). -/
def idxBits (i : Nat) : BitVec 16 := BitVec.ofNat 16 i

/-- A channel input as its 16-bit two's-complement field (R55). -/
def chanBits (x : Int) : BitVec 16 := BitVec.ofInt 16 x

/-- The command word of a well-formed command (R57, R64: every field the syntax does not write is 0). -/
def encode : Instr → Word
  | .construct n => packC80 0x01 false (idxBits n) 0 0 0
  | .begin => packC80 0x02 false 0 0 0 0
  | .setpx i r g b gc => packC80 0x03 gc (idxBits i) (chanBits r) (chanBits g) (chanBits b)
  | .unsetpx i => packC80 0x04 false (idxBits i) 0 0 0
  | .allon r g b gc => packC80 0x05 gc 0 (chanBits r) (chanBits g) (chanBits b)
  | .alloff => packC80 0x06 false 0 0 0 0
  | .showFrame => packC80 0x07 false 0 0 0 0
  | .getpx i => packC80 0x08 false (idxBits i) 0 0 0
  | .destroy => packC80 0x09 false 0 0 0 0
  | .status => packC80 0x0A false 0 0 0 0

/-- `match` of R58, by the command's row. -/
def matchWord : Instr → Word
  | .construct _ => 0x01000000000000000000#80
  | .begin => 0x02000000000000000000#80
  | .setpx _ _ _ _ _ => 0x03000000000000000000#80
  | .unsetpx _ => 0x04000000000000000000#80
  | .allon _ _ _ _ => 0x05000000000000000000#80
  | .alloff => 0x06000000000000000000#80
  | .showFrame => 0x07000000000000000000#80
  | .getpx _ => 0x08000000000000000000#80
  | .destroy => 0x09000000000000000000#80
  | .status => 0x0A000000000000000000#80

/-- `mask` of R58, by the command's row. -/
def maskWord : Instr → Word
  | .construct _ => 0xFFFF0000FFFFFFFFFFFF#80
  | .begin => 0xFFFFFFFFFFFFFFFFFFFF#80
  | .setpx _ _ _ _ _ => 0xFFFE0000000000000000#80
  | .unsetpx _ => 0xFFFF0000FFFFFFFFFFFF#80
  | .allon _ _ _ _ => 0xFFFEFFFF000000000000#80
  | .alloff => 0xFFFFFFFFFFFFFFFFFFFF#80
  | .showFrame => 0xFFFFFFFFFFFFFFFFFFFF#80
  | .getpx _ => 0xFFFF0000FFFFFFFFFFFF#80
  | .destroy => 0xFFFFFFFFFFFFFFFFFFFF#80
  | .status => 0xFFFFFFFFFFFFFFFFFFFF#80

/-- The word of a row of spec/opcode_table.json given as a number: its low `nbits` bits, every bit above them 0. The word is
parallel, so no byte order applies (R63). -/
def tableWord (nbits w : Nat) : Word := BitVec.ofNat 80 (w % 2 ^ nbits)

/-- What the decoder reads from a table word. -/
def decodeTableWord (nbits w : Nat) : Option Instr := (decode (tableWord nbits w)).toInstr?

end Sys2Proof
end

