-- ==== Sys2Proof/Machine/State.lean ====
section
/-! DEFINITION. The state of the block as plain data, its outputs, its reset state, and the ways a step can stop. -/

namespace Sys2Proof.Machine

/-- `LIFE` (R14): EMPTY = 0, CONSTRUCTED = 1, READY = 2, DESTROYED = 3. -/
inductive Life where
  | empty | constructed | ready | destroyed
  deriving DecidableEq, Repr

/-- The status codes a response can carry (R108). Codes 5 to 15 are reserved and never produced. -/
inductive Status where
  | ok | eIllegal | eLifecycle | eIndex | eAlloc
  deriving DecidableEq, Repr

/-- The response `(st, d)` of an accepted command (R66). -/
structure Response where
  status : Status
  data : BitVec 32
  deriving DecidableEq, Repr

/-- An output event (R33). -/
inductive Event where
  /-- a completed transport transfer -/
  | byte (b : Byte)
  /-- `LATCH_Q` changed to `v` -/
  | latch (v : Bool)
  /-- `LATCH_OE` changed to `d` -/
  | latchDrive (d : Bool)
  /-- `SPI_EN` changed to `e` -/
  | spiEnable (e : Bool)
  deriving DecidableEq, Repr

/-- One item of the observation: an answered command with its events (R33), or a reset edge with its events and, before them,
the events of the command it abandoned and whether a byte was cut short (R127, R128). -/
inductive Obs where
  | response (r : Response) (evs : List Event)
  | reset (abandoned : List Event) (cut : Bool) (evs : List Event)
  deriving DecidableEq, Repr

/-- The input ports as sampled at one rising edge of `clk` (R29). -/
structure PortsIn where
  rstN : Bool
  cmdValid : Bool
  cmdWord : Word
  rspReady : Bool
  txDone : Bool
  deriving DecidableEq, Repr

/-- What the outside does next: present one command word and take its response (a whole transaction, R8), or one clock edge
with the given input ports (R29). -/
inductive HostInput where
  | command (w : Word)
  | edge (p : PortsIn)
  deriving DecidableEq, Repr

/-- What follows a buffer fill: CONSTRUCT's own end, or the frame of ALLON and ALLOFF (R84, R100, R101). -/
inductive FillJob where
  | construct | frame
  deriving DecidableEq, Repr

/-- The counters of a command under way (R27): the fill counter `k` up to the sampled length `n`; the serializer's packet counter
`k` and byte counter `j`; the latch timer `t`; and the last cycle before the response is presented (R32(d)). -/
inductive Work where
  | filling (job : FillJob) (k n : Nat) (p : Packet)
  | sending (k : Nat) (j : Fin 4)
  | latchSetup (t : Nat)
  | latchHigh (t : Nat)
  | finishing
  deriving DecidableEq, Repr

/-- The hidden state of R27: idle; busy with a command, with its events so far; or holding a response not yet taken. -/
inductive Sequencer where
  | idle
  | busy (work : Work) (evs : List Event)
  | responding (r : Response) (evs : List Event)
  deriving DecidableEq, Repr

/-- The pixel buffer: (index, packet) pairs, the indexes strictly rising. An index without a pair has unspecified contents. A
whole packet is the unit of every access (R41). -/
abbrev Memory := List (Nat × Packet)


/-- The state: the record S of R13, the hidden state of R27 (`seq`), and the model's own `freeIx`, `host` and `trace`. -/
structure State where
  /-- `LIFE` (R14) -/
  life : Life
  /-- `NLEN` (R15) -/
  nlen : BitVec 16
  /-- `LATCH_OE` (R16) -/
  latchOe : Bool
  /-- `LATCH_Q` (R17) -/
  latchQ : Bool
  /-- `SPI_EN` (R18) -/
  spiEn : Bool
  /-- `ERR` (R19) -/
  err : BitVec 4
  /-- `BUF` (R20) -/
  buf : Memory
  /-- the hidden state (R27) -/
  seq : Sequencer
  /-- the model's own: which unspecified values are meant (log entry 3) -/
  freeIx : Nat
  /-- the model's own: the inputs still to come (log entry 5) -/
  host : List HostInput
  /-- the model's own: the observation so far, oldest first (R33) -/
  trace : List Obs
  deriving DecidableEq, Repr

/-- The state after reset (R35), with nothing presented by the host and nothing observed. `BUF` lists nothing: every entry is
unspecified. `freeIx` = 0 is a DESIGN CHOICE (log entry 3); safe, since the free values it selects are unconstrained. -/
def State.reset : State where
  life := .empty
  nlen := 0
  latchOe := false
  latchQ := false
  spiEn := false
  err := 0
  buf := []
  seq := .idle
  freeIx := 0
  host := []
  trace := []

/-- A command in progress inside one step: the state so far and the events emitted so far (R11, R33). -/
structure Run where
  state : State
  evs : List Event
  deriving DecidableEq, Repr

/-- The outcome of a command: `(S', (st, d), evs)` of R34. -/
structure Done where
  state : State
  rsp : Response
  evs : List Event
  deriving DecidableEq, Repr

/-- No fault exists: every error of the block is a status code in a response (R107, R113), and nothing else stops it. -/
inductive Fault where
  deriving DecidableEq, Repr

/-- The refusals. -/
inductive Refusal where
  /-- An instruction without a meaning, by its mnemonic. Raised by an arm of `exec` only; no arm raises it, so no difference from
  the hardware follows (safe). -/
  | notModelled (mnemonic : String)
  deriving DecidableEq, Repr

end Sys2Proof.Machine
end

