-- ==== Sys2Proof/Machine/Flags.lean ====
section
/-! DEFINITION. The block has no condition flags (R28). What takes their place: the status codes (R108), the sticky error field
(R19, R114) and the status word (R25). -/

namespace Sys2Proof.Machine

/-- The 2-bit encoding of `LIFE` (R14). -/
def Life.code : Life → BitVec 2
  | .empty => 0
  | .constructed => 1
  | .ready => 2
  | .destroyed => 3

/-- An instance exists: `LIFE` in {CONSTRUCTED, READY}. -/
def Life.live : Life → Bool
  | .empty => false
  | .constructed => true
  | .ready => true
  | .destroyed => false

/-- The 4-bit status code (R108). -/
def Status.code : Status → BitVec 4
  | .ok => 0
  | .eIllegal => 1
  | .eLifecycle => 2
  | .eIndex => 3
  | .eAlloc => 4

/-- The sticky error field after a command that ends with status `e`: the first nonzero status is kept (R19, R114). -/
def stickyErr (err : BitVec 4) (e : Status) : BitVec 4 := if err = 0 then e.code else err

/-- `status_word(S)` (R25): `{NLEN, 0000, ERR, 000, SPI_EN, LATCH_Q, LATCH_OE, LIFE}`. -/
def statusWord (s : State) : BitVec 32 :=
  s.nlen ++ (0#4 ++ (s.err ++ (0#3 ++ (BitVec.ofBool s.spiEn ++ (BitVec.ofBool s.latchQ ++
    (BitVec.ofBool s.latchOe ++ s.life.code))))))

end Sys2Proof.Machine
end

