-- ==== Sys2Proof/Machine/Ops.lean ====
section
/-! DEFINITION. The shared operations: the pixel buffer's memory, the output levels and their events, the error outcome, the
response, and reset. -/

namespace Sys2Proof.Machine

/-- The canonical form: the indexes strictly rising. (Unlisted contents are unspecified, so no listed packet can equal what an
unlisted index reads as.) -/
abbrev Memory.wf (m : Memory) : Prop := (m.map Prod.fst).Pairwise (· < ·)

/-- The packet listed for index `i`, if any. -/
def memFind : Memory → Nat → Option Packet
  | [], _ => none
  | (a, p) :: m, i => if a = i then some p else memFind m i

/-- `m` with packet `v` at index `i`, in place. -/
def memWrite : Memory → Nat → Packet → Memory
  | [], i, v => [(i, v)]
  | (a, p) :: m, i, v =>
    if i < a then (i, v) :: (a, p) :: m
    else if i = a then (i, v) :: m
    else (a, p) :: memWrite m i v

/-- `m` with packet `v` at the `count` indexes from `k` up, written in rising order. -/
def memFill (k : Nat) : Nat → Packet → Memory → Memory
  | 0, _, m => m
  | count + 1, v, m => memFill (k + 1) count v (memWrite m k v)

/-- `BufRead(i)` (R38). An index whose contents are unspecified reads as a free value (R20). -/
def bufRead (s : State) (i : Nat) : Packet := (memFind s.buf i).getD (Config.unspecifiedPacket s.freeIx i)

/-- `BufWrite(i, v)` (R39): the whole packet is replaced. -/
def bufWrite (s : State) (i : Nat) (v : Packet) : State := { s with buf := memWrite s.buf i v }

/-- `for i in 0 .. n-1: BUF[i] <- v` (R84, R100, R101). -/
def bufFill (s : State) (n : Nat) (v : Packet) : State := { s with buf := memFill 0 n v s.buf }

/-- `BUF[*] <- unspecified` (R86; R35 at reset): nothing is listed, and later reads see other free values than earlier ones. -/
def bufForget (s : State) : State := { s with buf := [], freeIx := s.freeIx + 1 }

/-- A command starts: no event yet. -/
def start (s : State) : Run := ⟨s, []⟩

/-- `emit E` for each event of a list in order (R11). -/
def Run.emit (r : Run) (es : List Event) : Run := { r with evs := r.evs ++ es }

/-- The event of writing a level: none if it keeps its value, one if it changes (R33). -/
def onChange (old new : Bool) (e : Event) : List Event :=
  match old, new with
  | false, false => []
  | true, true => []
  | false, true => [e]
  | true, false => [e]

/-- `LATCH_OE <- d`, with `LatchDrive(d)` if the level changes (R33). -/
def Run.setLatchOe (d : Bool) (r : Run) : Run :=
  { state := { r.state with latchOe := d }, evs := r.evs ++ onChange r.state.latchOe d (.latchDrive d) }

/-- `LATCH_Q <- v`, with `Latch(v)` if the level changes (R33). -/
def Run.setLatchQ (v : Bool) (r : Run) : Run :=
  { state := { r.state with latchQ := v }, evs := r.evs ++ onChange r.state.latchQ v (.latch v) }

/-- `SPI_EN <- e`, with `SpiEnable(e)` if the level changes (R33). -/
def Run.setSpiEn (e : Bool) (r : Run) : Run :=
  { state := { r.state with spiEn := e }, evs := r.evs ++ onChange r.state.spiEn e (.spiEnable e) }

/-- `respond(OK, d)` (R11) at the end of a command. -/
def Run.succeed (d : BitVec 32) (r : Run) : Done := ⟨r.state, ⟨.ok, d⟩, r.evs⟩

/-- `raise E_X` (R113), the error outcome every error takes: the sticky field is updated, the response is `(E_X, 0)`, no other
field is written and no event emitted. There is no return from it: the next command is accepted as usual (R117). -/
def raise (e : Status) (s : State) : Done := ⟨{ s with err := stickyErr s.err e }, ⟨e, 0⟩, []⟩

/-- The state after a command, with its response and events added to the observation (R33). -/
def Done.record (d : Done) : State := { d.state with trace := d.state.trace ++ [.response d.rsp d.evs] }

/-- A command always ends in a next state (R34). -/
def Done.answer (d : Done) : Host.Outcome State Fault Refusal := .next d.record

/-- The four bytes of a packet on the wire, most significant first (R42, R98). -/
def packetBytes (p : Packet) : List Event :=
  [.byte (p.extractLsb' 24 8), .byte (p.extractLsb' 16 8), .byte (p.extractLsb' 8 8), .byte (p.extractLsb' 0 8)]

/-- The bytes of indexes `k-1` down to 0 (R98). -/
def frameBytes (s : State) : Nat → List Event
  | 0 => []
  | k + 1 => packetBytes (bufRead s k) ++ frameBytes s k

/-- The latch pulse (R98): high, then immediately low. -/
def Run.latchPulse (r : Run) : Run := Run.setLatchQ false (Run.setLatchQ true r)

/-- `frame()` (R98): every packet from index `NLEN-1` down to 0, then one latch pulse. -/
def Run.frame (r : Run) : Run := (r.emit (frameBytes r.state r.state.nlen.toNat)).latchPulse

/-- The block's levels go to their reset values with the events of R127: `LatchDrive(0)`, `Latch(0)`, `SpiEnable(0)`, each only on
a change, in that order. -/
def Run.releaseAll (r : Run) : Run := Run.setSpiEn false (Run.setLatchQ false (Run.setLatchOe false r))

/-- Reset (R127): S becomes `reset(P)`, the hidden state idle; the command under way, whose events so far are `abandoned`, gets
no response, and `cut` says whether its byte in transfer was cut short (R128). -/
def resetBlock (abandoned : List Event) (cut : Bool) (s : State) : State :=
  let r := (start s).releaseAll
  { bufForget r.state with
    life := .empty, nlen := 0, err := 0, seq := .idle, trace := s.trace ++ [.reset abandoned cut r.evs] }

end Sys2Proof.Machine
end

