-- ==== Sys2Proof/Machine/Operands.lean ====
section
/-! DEFINITION. What a channel operand becomes: the clamp and the gamma lookup (R67 to R71). Length and index operands are used
as they are (R56). -/

namespace Sys2Proof.Machine

/-- `clamp10` (R67): saturate to [0, 1023]. -/
def clamp10 (x : Int) : U10 :=
  if x < 0 then 0
  else if 1023 < x then 1023
  else BitVec.ofNat 10 x.toNat

/-- `LUT(x)` (R69). -/
def lut (P : Params) (x : U10) : U10 := P.gamma x

/-- `enc_channel` (R71): clamp, then look up if `gc` = 1. -/
def encChannel (P : Params) (x : Int) (gc : Bool) : U10 := if gc then lut P (clamp10 x) else clamp10 x

end Sys2Proof.Machine
end

