-- ==== Sys2Proof/Machine/Codec.lean ====
section
/-! DEFINITION. The packet assembler, the packet decoder that laws use, and the simulation stand-in table (R72 to R82). -/

namespace Sys2Proof.Machine

/-- `pack_pwm` under a layout (R73, R75): bits 31 and 30 are 0, and each channel goes to its layout's slot. -/
def packPwm (layout : PwmLayout) (r g b : U10) : Packet :=
  match layout with
  | .brg => 0#2 ++ (b ++ (r ++ g))
  | .bgr => 0#2 ++ (b ++ (g ++ r))
  | .rbg => 0#2 ++ (r ++ (b ++ g))
  | .rgb => 0#2 ++ (r ++ (g ++ b))
  | .gbr => 0#2 ++ (g ++ (b ++ r))
  | .grb => 0#2 ++ (g ++ (r ++ b))

/-- `encode_color` (R76). -/
def encodeColor (P : Params) (r g b : Int) (gc : Bool) : Packet :=
  packPwm P.layout (encChannel P r gc) (encChannel P g gc) (encChannel P b gc)

/-- A decoded packet (R77). -/
inductive Decoded where
  | pwm (red green blue : U10) (spare : Bool)
  | cal (raw : BitVec 31)
  deriving DecidableEq, Repr

/-- The slot `p[29:20]`. -/
def slotHigh (p : Packet) : U10 := p.extractLsb' 20 10
/-- The slot `p[19:10]`. -/
def slotMid (p : Packet) : U10 := p.extractLsb' 10 10
/-- The slot `p[9:0]`. -/
def slotLow (p : Packet) : U10 := p.extractLsb' 0 10

/-- `decode_packet` (R77) under a layout: bit 31 is the discriminator, bit 30 the spare bit. -/
def decodePacket (layout : PwmLayout) (p : Packet) : Decoded :=
  if p.getLsbD 31 then .cal (p.extractLsb' 0 31)
  else
    let spare := p.getLsbD 30
    match layout with
    | .brg => .pwm (slotMid p) (slotLow p) (slotHigh p) spare
    | .bgr => .pwm (slotLow p) (slotMid p) (slotHigh p) spare
    | .rbg => .pwm (slotHigh p) (slotLow p) (slotMid p) spare
    | .rgb => .pwm (slotHigh p) (slotMid p) (slotLow p) spare
    | .gbr => .pwm (slotLow p) (slotHigh p) (slotMid p) spare
    | .grb => .pwm (slotMid p) (slotHigh p) (slotLow p) spare

/-- `y` is not above `1023 * (x/1023)^2.8 + 1/2`, in whole numbers: raise `2y - 1 <= 2 * 1023 * (x/1023)^(14/5)` to the fifth
power. -/
def gammaRefReaches (x y : Nat) : Bool := decide ((2 * y - 1) ^ 5 * 1023 ^ 9 ≤ 32 * x ^ 14)

/-- The number of `y` in 1..n that the curve reaches at `x`. -/
def gammaRefCount (x : Nat) : Nat → Nat
  | 0 => 0
  | n + 1 => gammaRefCount x n + (if gammaRefReaches x (n + 1) then 1 else 0)

/-- `GAMMA_REF(x) = floor(1023 * (x/1023)^2.8 + 1/2)` (R82), for simulation only: no meaning and no statement about the
machine reads it. -/
def gammaRef (x : U10) : U10 := BitVec.ofNat 10 (gammaRefCount x.toNat 1023)

end Sys2Proof.Machine
end

