-- ==== Sys2Proof/Machine/Frame.lean ====
section
/-! DEFINITION. SHOW, ALLON and ALLOFF (43_frame.md). -/

namespace Sys2Proof.Machine

/-- SHOW (R99). -/
def doShow (s : State) : Done :=
  if s.life = .ready then (start s).frame.succeed 0 else raise .eLifecycle s

/-- ALLON r, g, b, gc (R100) under parameters `P`. -/
def doAllon (P : Params) (r g b : Int) (gc : Bool) (s : State) : Done :=
  if s.life = .ready then (start (bufFill s s.nlen.toNat (encodeColor P r g b gc))).frame.succeed 0
  else raise .eLifecycle s

/-- ALLOFF (R101). -/
def doAlloff (s : State) : Done :=
  if s.life = .ready then (start (bufFill s s.nlen.toNat 0)).frame.succeed 0 else raise .eLifecycle s

/-- SHOW (R99). -/
def execShow (s : State) : Host.Outcome State Fault Refusal := (doShow s).answer

/-- ALLON r, g, b, gc (R100). -/
def execAllon (r g b : Int) (gc : Bool) (s : State) : Host.Outcome State Fault Refusal :=
  (doAllon Config.params r g b gc s).answer

/-- ALLOFF (R101). -/
def execAlloff (s : State) : Host.Outcome State Fault Refusal := (doAlloff s).answer

end Sys2Proof.Machine
end

