-- ==== Sys2Proof/Machine/Lifecycle.lean ====
section
/-! DEFINITION. CONSTRUCT, BEGIN, DESTROY and STATUS (41_lifecycle.md). -/

namespace Sys2Proof.Machine

/-- CONSTRUCT n (R84) under parameters `P`. -/
def doConstruct (P : Params) (n : Nat) (s : State) : Done :=
  if s.life.live then raise .eLifecycle s
  else if n = 0 ∨ P.maxN < n then raise .eAlloc s
  else (start { bufFill s n 0 with nlen := BitVec.ofNat 16 n, life := .constructed }).succeed 0

/-- BEGIN (R85). -/
def doBegin (s : State) : Done :=
  if s.life = .constructed then
    let r := Run.setSpiEn true (Run.setLatchOe true (Run.setLatchQ false (start s)))
    Run.succeed 0 { r with state := { r.state with life := .ready } }
  else raise .eLifecycle s

/-- DESTROY (R86). -/
def doDestroy (s : State) : Done :=
  if s.life.live then
    let r := Run.setSpiEn false (Run.setLatchOe false (start { bufForget s with nlen := 0 }))
    Run.succeed 0 { r with state := { r.state with life := .destroyed } }
  else raise .eLifecycle s

/-- STATUS (R87). -/
def doStatus (s : State) : Done := (start s).succeed (statusWord s)

/-- CONSTRUCT n (R84). -/
def execConstruct (n : Nat) (s : State) : Host.Outcome State Fault Refusal := (doConstruct Config.params n s).answer

/-- BEGIN (R85). -/
def execBegin (s : State) : Host.Outcome State Fault Refusal := (doBegin s).answer

/-- DESTROY (R86). -/
def execDestroy (s : State) : Host.Outcome State Fault Refusal := (doDestroy s).answer

/-- STATUS (R87). -/
def execStatus (s : State) : Host.Outcome State Fault Refusal := (doStatus s).answer

end Sys2Proof.Machine
end

