-- ==== Sys2Proof/Machine/Pixel.lean ====
section
/-! DEFINITION. SETPX, UNSETPX and GETPX (42_pixel.md). -/

namespace Sys2Proof.Machine

/-- The checks every pixel command makes, in the order of R90, before it runs `body`. -/
def withPixel (i : Nat) (s : State) (body : Done) : Done :=
  if s.life.live then
    if i < s.nlen.toNat then body else raise .eIndex s
  else raise .eLifecycle s

/-- SETPX i, r, g, b, gc (R91) under parameters `P`. -/
def doSetpx (P : Params) (i : Nat) (r g b : Int) (gc : Bool) (s : State) : Done :=
  withPixel i s ((start (bufWrite s i (encodeColor P r g b gc))).succeed 0)

/-- UNSETPX i (R92) under parameters `P`. -/
def doUnsetpx (P : Params) (i : Nat) (s : State) : Done :=
  withPixel i s ((start (bufWrite s i (encodeColor P 0 0 0 true))).succeed 0)

/-- GETPX i (R93). -/
def doGetpx (i : Nat) (s : State) : Done := withPixel i s ((start s).succeed (bufRead s i))

/-- SETPX i, r, g, b, gc (R91). -/
def execSetpx (i : Nat) (r g b : Int) (gc : Bool) (s : State) : Host.Outcome State Fault Refusal :=
  (doSetpx Config.params i r g b gc s).answer

/-- UNSETPX i (R92). -/
def execUnsetpx (i : Nat) (s : State) : Host.Outcome State Fault Refusal := (doUnsetpx Config.params i s).answer

/-- GETPX i (R93). -/
def execGetpx (i : Nat) (s : State) : Host.Outcome State Fault Refusal := (doGetpx i s).answer

end Sys2Proof.Machine
end

