-- ==== Sys2Proof/Machine/Dispatch.lean ====
section
/-! DEFINITION. One arm per command (R57's rule column). -/

namespace Sys2Proof.Machine

def exec (i : Instr) (s : State) : Host.Outcome State Fault Refusal :=
  match i with
  | .construct n => Sys2Proof.Machine.execConstruct n s
  | .begin => Sys2Proof.Machine.execBegin s
  | .setpx idx r g b gc => Sys2Proof.Machine.execSetpx idx r g b gc s
  | .unsetpx idx => Sys2Proof.Machine.execUnsetpx idx s
  | .allon r g b gc => Sys2Proof.Machine.execAllon r g b gc s
  | .alloff => Sys2Proof.Machine.execAlloff s
  | .showFrame => Sys2Proof.Machine.execShow s
  | .getpx idx => Sys2Proof.Machine.execGetpx idx s
  | .destroy => Sys2Proof.Machine.execDestroy s
  | .status => Sys2Proof.Machine.execStatus s

end Sys2Proof.Machine
end

