-- ==== Sys2Proof/Machine/Transact.lean ====
section
/-! DEFINITION. The transaction model `step(P, S, w) = (S', (st, d), evs)` of R34 for any parameter record, and the illegal word. -/

namespace Sys2Proof.Machine

/-- `execute(cmd)` (R59) under parameters `P`. -/
def perform (P : Params) (i : Instr) (s : State) : Done :=
  match i with
  | .construct n => doConstruct P n s
  | .begin => doBegin s
  | .setpx i r g b gc => doSetpx P i r g b gc s
  | .unsetpx i => doUnsetpx P i s
  | .allon r g b gc => doAllon P r g b gc s
  | .alloff => doAlloff s
  | .showFrame => doShow s
  | .getpx i => doGetpx i s
  | .destroy => doDestroy s
  | .status => doStatus s

/-- A word that spells no command: `raise E_ILLEGAL`, whatever `LIFE` is (R59, R109). -/
def doIllegal (s : State) : Done := raise .eIllegal s

/-- `step(P, S, w)` (R34, R59). -/
def transact (P : Params) (w : Word) (s : State) : Done :=
  match decode w with
  | .cmd i => perform P i s
  | .illegal _ => doIllegal s

/-- The outcome of an illegal word in the machine (R109). -/
def execIllegal (s : State) : Host.Outcome State Fault Refusal := (doIllegal s).answer

end Sys2Proof.Machine
end

