-- ==== Sys2Proof/Machine/Ports.lean ====
section
/-! DEFINITION. The cycle-level machine: the ports and handshakes of R29 to R32, the frame's steps of R105, and reset at any edge
(R127, R128). One call of `clockEdge` is one rising edge of `clk`. -/

namespace Sys2Proof.Machine

/-- The output ports (R29). `rsp` is the pair `rsp_status`, `rsp_data` while `rsp_valid` = 1, and `tx` is `tx_byte` while
`tx_valid` = 1; what those ports carry otherwise the spec does not say, and the model gives it no value. -/
structure PortsOut where
  cmdReady : Bool
  rsp : Option Response
  tx : Option Byte
  spiEn : Bool
  latchOe : Bool
  latchQ : Bool
  deriving DecidableEq, Repr

/-- Byte `j` of packet `p` on the wire: `p[31-8j : 24-8j]` (R42, R105(b)). -/
def wireByte (p : Packet) (j : Fin 4) : Byte := p.extractLsb' (24 - 8 * j.val) 8

/-- The byte the block presents to the transport: only while a frame is being sent and `SPI_EN` = 1 (R31(d), R105(b)). -/
def txPresented (s : State) : Option Byte :=
  match s.seq with
  | .busy (.sending k j) _ => if s.spiEn then some (wireByte (bufRead s k) j) else none
  | _ => none

/-- No command is executing and no response is waiting (R30(b)). -/
def isIdle (s : State) : Bool :=
  match s.seq with
  | .idle => true
  | .busy _ _ => false
  | .responding _ _ => false

/-- The response waiting to be taken (R30(c)). -/
def rspPresented (s : State) : Option Response :=
  match s.seq with
  | .idle => none
  | .busy _ _ => none
  | .responding r _ => some r

/-- The output ports in a state while the `rst_n` input is `rstN`: a block held in reset shows no ready and no valid (R127). -/
def portsOut (rstN : Bool) (s : State) : PortsOut where
  cmdReady := rstN && isIdle s
  rsp := if rstN then rspPresented s else none
  tx := if rstN then txPresented s else none
  spiEn := s.spiEn
  latchOe := s.latchOe
  latchQ := s.latchQ

/-- The command at the port is accepted at this edge (R30(a)). -/
def accepts (p : PortsIn) (s : State) : Bool := p.rstN && p.cmdValid && isIdle s

/-- A finished command's response is presented and held (R30(c)). -/
def hold (d : Done) : State := { d.state with seq := .responding d.rsp d.evs }

/-- The state of a command in progress with the work still to do. -/
def Run.continue (w : Work) (r : Run) : State := { r.state with seq := .busy w r.evs }

/-- After the last byte (R32(a), (b)): wait `LATCH_SETUP_CYCLES`, then raise the latch for `LATCH_HIGH_CYCLES`. -/
def startLatch (P : Params) (r : Run) : State :=
  if P.latchSetup = 0 then (Run.setLatchQ true r).continue (.latchHigh P.latchHigh)
  else r.continue (.latchSetup P.latchSetup)

/-- A frame starts (R105(a)): packet counter `NLEN-1`, byte counter 0. -/
def startFrame (P : Params) (r : Run) : State :=
  match r.state.nlen.toNat with
  | 0 => startLatch P r
  | k + 1 => r.continue (.sending k 0)

/-- CONSTRUCT's last writes, after its buffer entries are zeroed (R84). -/
def finishConstruct (n : Nat) (s : State) : State := { s with nlen := BitVec.ofNat 16 n, life := .constructed }

/-- The edge at which a command is accepted. A command that fills or sends starts its work; any other command, and any error,
is carried out at this edge, so that its response is presented in the next cycle (R138). -/
def accept (P : Params) (w : Word) (s : State) : State :=
  match decode w with
  | .cmd (.construct n) =>
    if s.life.live ∨ n = 0 ∨ P.maxN < n then hold (transact P w s)
    else (start s).continue (.filling .construct 0 n 0)
  | .cmd (.allon r g b gc) =>
    if s.life = .ready then (start s).continue (.filling .frame 0 s.nlen.toNat (encodeColor P r g b gc))
    else hold (transact P w s)
  | .cmd .alloff =>
    if s.life = .ready then (start s).continue (.filling .frame 0 s.nlen.toNat 0) else hold (transact P w s)
  | .cmd .showFrame => if s.life = .ready then startFrame P (start s) else hold (transact P w s)
  | _ => hold (transact P w s)

/-- The edge that completes the transfer of byte `j` of packet `k` (R31(b), R105(b), (c)). -/
def byteDone (P : Params) (k : Nat) (j : Fin 4) (r : Run) : State :=
  let r' := r.emit [.byte (wireByte (bufRead r.state k) j)]
  if j.val < 3 then r'.continue (.sending k (j + 1))
  else
    match k with
    | 0 => startLatch P r'
    | k + 1 => r'.continue (.sending k 0)

/-- One edge of a busy block (R105, R32). -/
def workEdge (P : Params) (p : PortsIn) (w : Work) (r : Run) : State :=
  match w with
  | .filling job k n v =>
    if k < n then Run.continue (.filling job (k + 1) n v) { r with state := bufWrite r.state k v }
    else
      match job with
      | .construct => hold (Run.succeed 0 { r with state := finishConstruct n r.state })
      | .frame => startFrame P r
  | .sending k j => if p.txDone ∧ r.state.spiEn then byteDone P k j r else r.continue (.sending k j)
  | .latchSetup t =>
    if t ≤ 1 then (Run.setLatchQ true r).continue (.latchHigh P.latchHigh) else r.continue (.latchSetup (t - 1))
  | .latchHigh t =>
    if t ≤ 1 then (Run.setLatchQ false r).continue .finishing else r.continue (.latchHigh (t - 1))
  | .finishing => hold (r.succeed 0)

/-- Whether the transport finishes the byte in transfer when a reset edge comes: it says so at this edge, or it may do so later,
a free choice (R128(b); log entry 9). -/
def byteFinished (p : PortsIn) (s : State) : Bool := p.txDone || Config.byteFinishes s.freeIx

/-- The events of the command that a reset edge abandons (R128): those so far, and the byte in transfer if the transport
finishes it. -/
def abandonedEvents (p : PortsIn) (s : State) : List Event :=
  match s.seq with
  | .idle => []
  | .busy _ evs =>
    match txPresented s with
    | some b => if byteFinished p s then evs ++ [.byte b] else evs
    | none => evs
  | .responding _ evs => evs

/-- A reset edge cuts a byte short: one is in transfer and the transport does not finish it (R128(b)). -/
def byteCut (p : PortsIn) (s : State) : Bool := (txPresented s).isSome && !byteFinished p s

/-- One rising edge of `clk` with the input ports `p` (R29 to R32, R105, R127). -/
def clockEdge (P : Params) (p : PortsIn) (s : State) : State :=
  if p.rstN then
    match s.seq with
    | .idle => if p.cmdValid then accept P p.cmdWord s else s
    | .busy w evs => workEdge P p w ⟨s, evs⟩
    | .responding r evs => if p.rspReady then Done.record ⟨{ s with seq := .idle }, r, evs⟩ else s
  else resetBlock (abandonedEvents p s) (byteCut p s) s

/-- A command in progress ends: its response is presented and taken, and the block is idle. -/
def Run.wrapUp (r : Run) : State := Done.record ⟨{ r.state with seq := .idle }, ⟨.ok, 0⟩, r.evs⟩

/-- The command in progress carried to its end at once, as if every byte were completed and the response taken (the
transaction model's view of it, R34, R139). Nothing changes if the block is idle. -/
def complete (s : State) : State :=
  match s.seq with
  | .idle => s
  | .responding r evs => Done.record ⟨{ s with seq := .idle }, r, evs⟩
  | .busy w evs =>
    match w with
    | .filling .construct k n v => Run.wrapUp ⟨finishConstruct n { s with buf := memFill k (n - k) v s.buf }, evs⟩
    | .filling .frame k n v => (Run.frame ⟨{ s with buf := memFill k (n - k) v s.buf }, evs⟩).wrapUp
    | .sending k j =>
      (Run.emit ⟨s, evs⟩ ((packetBytes (bufRead s k)).drop j.val ++ frameBytes s k)).latchPulse.wrapUp
    | .latchSetup _ => (Run.latchPulse ⟨s, evs⟩).wrapUp
    | .latchHigh _ => (Run.setLatchQ false ⟨s, evs⟩).wrapUp
    | .finishing => Run.wrapUp ⟨s, evs⟩

/-- The states of a run of clock edges: the last one. -/
def runEdges (P : Params) : List PortsIn → State → State
  | [], s => s
  | p :: ps, s => runEdges P ps (clockEdge P p s)

/-- The command words a run of clock edges accepts, in order (R30). -/
def acceptedWords (P : Params) : List PortsIn → State → List Word
  | [], _ => []
  | p :: ps, s => (if accepts p s then [p.cmdWord] else []) ++ acceptedWords P ps (clockEdge P p s)

/-- The transaction model run over a list of command words (R34, R46). -/
def runWords (P : Params) : List Word → State → State
  | [], s => s
  | w :: ws, s => runWords P ws (transact P w s).record

end Sys2Proof.Machine
end

