-- ==== Sys2Proof/Machine/Inputs.lean ====
section
/-! DEFINITION. How the block takes what the host presents, and how a command word is presented to it. -/

namespace Sys2Proof.Machine

/-- The block takes the next input of the host. A command word is one atomic transaction (R8, R34), taken when the block is idle;
a block that still holds a command from earlier clock edges first completes it (R30(b), (e); log entry 12). A clock edge is the
cycle-level machine's. With no input to come the block completes what it has and then waits, its state kept (R124). -/
def takeInput (s : State) : Host.Outcome State Fault Refusal :=
  match s.host with
  | [] => .next (complete s)
  | .edge p :: rest => .next (clockEdge Config.params p { s with host := rest })
  | .command w :: rest =>
    if isIdle s then
      match decode w with
      | .cmd i => exec i { s with host := rest }
      | .illegal _ => execIllegal { s with host := rest }
    else .next (complete s)

/-- `s` with a command word presented next, at the head of the host's inputs. The block is ready for it: a command from earlier
clock edges is completed first (whenever the block is idle, so in `State.reset`, nothing else changes). -/
def presentNext (s : State) (w : Word) : State := { complete s with host := .command w :: s.host }

end Sys2Proof.Machine
end

