-- ==== Sys2Proof/Machine/Step.lean ====
section
/-! DEFINITION. One step: the block takes the next input of the host. -/

namespace Sys2Proof.Machine

/-- One step of the block, with what the host presents next. -/
def step (s : State) : Host.Outcome State Fault Refusal := takeInput s

/-- `s` with a command word where `step` takes its next input. -/
def State.withFetchWord (s : State) (nbits w : Nat) : State := presentNext s (tableWord nbits w)

end Sys2Proof.Machine
end

