-- ==== Sys2Proof/Machine/Assembler.lean ====
section
/-! DEFINITION. The assembly syntax (R64) and the expansion of the source's calls (R65). `step` does not read it. -/

namespace Sys2Proof.Machine

/-- The value of a hexadecimal digit. -/
def digitValue (c : Char) : Option Nat :=
  if '0' ≤ c ∧ c ≤ '9' then some (c.toNat - '0'.toNat)
  else if 'a' ≤ c ∧ c ≤ 'f' then some (c.toNat - 'a'.toNat + 10)
  else if 'A' ≤ c ∧ c ≤ 'F' then some (c.toNat - 'A'.toNat + 10)
  else none

/-- The digits of a numeral in a base, after the value read so far. -/
def digitsValue (base : Nat) : List Char → Nat → Option Nat
  | [], n => some n
  | c :: cs, n =>
    match digitValue c with
    | some d => if d < base then digitsValue base cs (n * base + d) else none
    | none => none

/-- A decimal or `0x`-hexadecimal integer (R64). -/
def numeral : List Char → Option Nat
  | [] => none
  | '0' :: 'x' :: [] => none
  | '0' :: 'x' :: cs => digitsValue 16 cs 0
  | cs => digitsValue 10 cs 0

/-- A channel operand: a numeral, which may have a leading `-` (R64). -/
def signedNumeral : List Char → Option Int
  | '-' :: cs => (numeral cs).map fun n => -(n : Int)
  | cs => (numeral cs).map fun n => (n : Int)

/-- A text without the spaces at its ends. -/
def trim (cs : List Char) : List Char := ((cs.dropWhile (· == ' ')).reverse.dropWhile (· == ' ')).reverse

/-- The parts of a text between commas. -/
def splitCommas : List Char → List (List Char)
  | [] => [[]]
  | c :: cs =>
    if c = ',' then [] :: splitCommas cs
    else
      match splitCommas cs with
      | [] => [[c]]
      | part :: parts => (c :: part) :: parts

/-- The operands after the mnemonic (none, or separated by commas). -/
def operandTexts (cs : List Char) : List (List Char) :=
  if trim cs = [] then [] else (splitCommas cs).map trim

/-- The one operand of CONSTRUCT, UNSETPX and GETPX. -/
def oneIndex (f : Nat → Instr) : List (List Char) → Option Instr
  | [i] => (numeral i).map f
  | _ => none

/-- The operands `r, g, b`. -/
def threeChannels (f : Int → Int → Int → Instr) : List (List Char) → Option Instr
  | [r, g, b] =>
    match signedNumeral r, signedNumeral g, signedNumeral b with
    | some r, some g, some b => some (f r g b)
    | _, _, _ => none
  | _ => none

/-- The operands `i, r, g, b`. -/
def indexAndChannels (f : Nat → Int → Int → Int → Instr) : List (List Char) → Option Instr
  | i :: rgb =>
    match numeral i with
    | some i => threeChannels (f i) rgb
    | none => none
  | [] => none

/-- A command without operands. -/
def noOperand (i : Instr) : List (List Char) → Option Instr
  | [] => some i
  | _ => none

/-- A mnemonic, with the suffix `.G` on SETPX and ALLON only, and its operands (R64). -/
def parseCommand (name : List Char) (ops : List (List Char)) : Option Instr :=
  if name = ['C', 'O', 'N', 'S', 'T', 'R', 'U', 'C', 'T'] then oneIndex .construct ops
  else if name = ['B', 'E', 'G', 'I', 'N'] then noOperand .begin ops
  else if name = ['S', 'E', 'T', 'P', 'X'] then indexAndChannels (fun i r g b => .setpx i r g b false) ops
  else if name = ['S', 'E', 'T', 'P', 'X', '.', 'G'] then indexAndChannels (fun i r g b => .setpx i r g b true) ops
  else if name = ['U', 'N', 'S', 'E', 'T', 'P', 'X'] then oneIndex .unsetpx ops
  else if name = ['A', 'L', 'L', 'O', 'N'] then threeChannels (fun r g b => .allon r g b false) ops
  else if name = ['A', 'L', 'L', 'O', 'N', '.', 'G'] then threeChannels (fun r g b => .allon r g b true) ops
  else if name = ['A', 'L', 'L', 'O', 'F', 'F'] then noOperand .alloff ops
  else if name = ['S', 'H', 'O', 'W'] then noOperand .showFrame ops
  else if name = ['G', 'E', 'T', 'P', 'X'] then oneIndex .getpx ops
  else if name = ['D', 'E', 'S', 'T', 'R', 'O', 'Y'] then noOperand .destroy ops
  else if name = ['S', 'T', 'A', 'T', 'U', 'S'] then noOperand .status ops
  else none

/-- One line of assembly as a command; an operand outside its range is refused, never wrapped or clamped (R64). -/
def parseLine (line : List Char) : Option Instr :=
  let line := trim line
  match parseCommand (line.takeWhile (· != ' ')) (operandTexts (line.dropWhile (· != ' '))) with
  | some i => if i.wellFormed then some i else none
  | none => none

/-- One line of assembly as a command word (R64). -/
def assembleLine (line : List Char) : Option Word := (parseLine line).map encode

/-- The digits of a number in a base of 2 to 16, most significant first; `fuel` above the number is enough. -/
def digitsOf (base : Nat) : Nat → Nat → List Char
  | 0, _ => []
  | fuel + 1, n => if n < base then [Nat.digitChar n] else digitsOf base fuel (n / base) ++ [Nat.digitChar (n % base)]

/-- A number as an operand is written (R64): decimal, or `0x` and hexadecimal. -/
def numeralText (hex : Bool) (n : Nat) : List Char :=
  match hex with
  | true => '0' :: 'x' :: digitsOf 16 (n + 1) n
  | false => digitsOf 10 (n + 1) n

/-- A channel input as it is written: a negative one with a leading `-` (R64). -/
def channelText (hex : Bool) : Int → List Char
  | .ofNat n => numeralText hex n
  | .negSucc n => '-' :: numeralText hex (n + 1)

/-- A name, with the suffix `.G` where gamma is asked for (R64). -/
def withSuffix (name : List Char) (gc : Bool) : List Char := if gc then name ++ ['.', 'G'] else name

/-- The mnemonic a command is written with (R64). -/
def mnemonicText : Instr → List Char
  | .construct _ => ['C', 'O', 'N', 'S', 'T', 'R', 'U', 'C', 'T']
  | .begin => ['B', 'E', 'G', 'I', 'N']
  | .setpx _ _ _ _ gc => withSuffix ['S', 'E', 'T', 'P', 'X'] gc
  | .unsetpx _ => ['U', 'N', 'S', 'E', 'T', 'P', 'X']
  | .allon _ _ _ gc => withSuffix ['A', 'L', 'L', 'O', 'N'] gc
  | .alloff => ['A', 'L', 'L', 'O', 'F', 'F']
  | .showFrame => ['S', 'H', 'O', 'W']
  | .getpx _ => ['G', 'E', 'T', 'P', 'X']
  | .destroy => ['D', 'E', 'S', 'T', 'R', 'O', 'Y']
  | .status => ['S', 'T', 'A', 'T', 'U', 'S']

/-- The operands a command is written with, in the order of R64's table. -/
def operandsOf (hex : Bool) : Instr → List (List Char)
  | .construct n => [numeralText hex n]
  | .begin => []
  | .setpx i r g b _ => [numeralText hex i, channelText hex r, channelText hex g, channelText hex b]
  | .unsetpx i => [numeralText hex i]
  | .allon r g b _ => [channelText hex r, channelText hex g, channelText hex b]
  | .alloff => []
  | .showFrame => []
  | .getpx i => [numeralText hex i]
  | .destroy => []
  | .status => []

/-- Each operand after a separator: a space before the first, a comma and a space before the others. -/
def joinOperands : List (List Char) → List Char
  | [] => []
  | [x] => ' ' :: x
  | x :: y :: xs => (' ' :: x) ++ ',' :: joinOperands (y :: xs)

/-- The line of assembly that writes a command: `MNEMONIC[.G] operand, operand, ...` (R64). -/
def printLine (hex : Bool) (i : Instr) : List Char := mnemonicText i ++ joinOperands (operandsOf hex i)

/-- The calls of the source's operations (R65). -/
inductive SourceCall where
  | construct (chainLength latchLine : Nat)
  | begin
  | setPixelRGB (index : Nat) (red green blue : Int) (gammaCorrected : Bool)
  /-- the four-argument form, whose default flag is not in the source -/
  | setPixelRGBNoFlag (index : Nat) (red green blue : Int)
  | unsetPixel (index : Nat)
  | allOn (red green blue : Int)
  | allOff
  | showCall
  | destroy
  | bufferRead (index : Nat)
  deriving DecidableEq, Repr

/-- The expansion of a source call (R65); the four-argument setPixelRGB has none. -/
def SourceCall.expand : SourceCall → Option Instr
  | .construct n _ => some (.construct n)
  | .begin => some .begin
  | .setPixelRGB i r g b gc => some (.setpx i r g b gc)
  | .setPixelRGBNoFlag _ _ _ _ => none
  | .unsetPixel i => some (.unsetpx i)
  | .allOn r g b => some (.allon r g b true)
  | .allOff => some .alloff
  | .showCall => some .showFrame
  | .destroy => some .destroy
  | .bufferRead i => some (.getpx i)

end Sys2Proof.Machine
end

