-- ==== Sys2Proof/Machine/Chain.lean ====
section
/-! DEFINITION. An observer of the block's outputs: a chain of LED modules, each a 32-bit shift register and a displayed register
(R12 "Chain", "Latch"; R44, R135 to R137). It is no part of the block: `step` does not read it. -/

namespace Sys2Proof.Machine

/-- A chain, module 0 (nearest the controller) first: what each module has shifted in, what it displays, whether the latch line is
in a pulse, and a counter for the free values of R128 and R135. -/
structure Chain where
  regs : List Packet
  display : List Packet
  pulse : Bool
  freeIx : Nat
  deriving DecidableEq, Repr

/-- One byte shifted in, most significant bit first (R42): each module passes its oldest byte on to the next (R12 "Chain"). -/
def shiftByte : Byte → List Packet → List Packet
  | _, [] => []
  | b, m :: ms => (m.extractLsb' 0 24 ++ b) :: shiftByte (m.extractLsb' 24 8) ms

/-- What the shift registers hold is not known: free values, one for each module (log entries 15 and 20). -/
def Chain.unknown (c : Chain) : Chain :=
  { c with regs := (List.range c.regs.length).map (Config.unknownRegister c.freeIx), freeIx := c.freeIx + 1 }

/-- A byte reaches the chain of a block whose `NLEN` is `n`. In a chain of exactly `n` modules it is shifted in; where a byte goes
in a chain of another length is in no source, and no placement is assumed (R135, U10). -/
def Chain.byte (n : Nat) (b : Byte) (c : Chain) : Chain :=
  if c.regs.length = n then { c with regs := shiftByte b c.regs } else c.unknown

/-- The latch commits what was shifted in to the display of every module at once (R12 "Latch", R136). -/
def Chain.commit (c : Chain) : Chain := { c with display := c.regs, pulse := false }

/-- One event of a command seen by the chain of a block whose `NLEN` is `n`: a complete latch pulse, high then low, commits. -/
def Chain.event (n : Nat) (c : Chain) : Event → Chain
  | .byte b => c.byte n b
  | .latch true => { c with pulse := true }
  | .latch false => if c.pulse then c.commit else c
  | .latchDrive _ => c
  | .spiEnable _ => c

/-- One event of a reset seen by the chain: a pulse it cuts short may or may not commit (R128(d)). -/
def Chain.cutEvent (n : Nat) (c : Chain) : Event → Chain
  | .latch false =>
    { (if Config.cutPulseLatches c.freeIx then c.commit else { c with pulse := false }) with freeIx := c.freeIx + 1 }
  | .latch true => { c with pulse := true }
  | .byte b => c.byte n b
  | .latchDrive _ => c
  | .spiEnable _ => c

/-- The chain after some events of a command. -/
def Chain.events (n : Nat) (c : Chain) (evs : List Event) : Chain := evs.foldl (Chain.event n) c

/-- The chain when a reset comes, after the abandoned command's events: DESIGN CHOICE (log entry 20), a byte cut short leaves
unknown shift registers, since the spec does not say how many of its bits were shifted in (R128(b)). -/
def Chain.abandoned (n : Nat) (c : Chain) (evs : List Event) (cut : Bool) : Chain :=
  if cut then (c.events n evs).unknown else c.events n evs

/-- The chain after one item of the observation of a block whose `NLEN` was `n` before it. -/
def Chain.observe (n : Nat) (c : Chain) : Obs → Chain
  | .response _ evs => c.events n evs
  | .reset abandoned cut evs => evs.foldl (Chain.cutEvent n) (c.abandoned n abandoned cut)

end Sys2Proof.Machine
end

