-- ==== Sys2Proof/Safety.lean ====
section
/-! DEFINITION. The terms claims are stated in: the lifecycle table, the invariants of R22 to R24 and R26, the levels and errors
an observation implies, the host's duty of R30(d), and the measure of the work left. -/

namespace Sys2Proof.Machine

/-- The lifecycle table of R83: true where it says "ok", false where it says `E_LIFECYCLE`. -/
def admits : Instr → Life → Bool
  | .construct _, l => l == .empty || l == .destroyed
  | .begin, l => l == .constructed
  | .setpx _ _ _ _ _, l => l == .constructed || l == .ready
  | .unsetpx _, l => l == .constructed || l == .ready
  | .getpx _, l => l == .constructed || l == .ready
  | .allon _ _ _ _, l => l == .ready
  | .alloff, l => l == .ready
  | .showFrame, l => l == .ready
  | .destroy, l => l == .constructed || l == .ready
  | .status, _ => true

/-- The error a command ends with, in the priority of R115 after decoding: `E_LIFECYCLE` (R83), then `E_INDEX` (R111) or
`E_ALLOC` (R112); none if it is carried out. -/
def errorOf (P : Params) (i : Instr) (s : State) : Option Status :=
  if admits i s.life then
    match i with
    | .construct n => if 1 ≤ n ∧ n ≤ P.maxN then none else some .eAlloc
    | .setpx idx _ _ _ _ => if idx < s.nlen.toNat then none else some .eIndex
    | .unsetpx idx => if idx < s.nlen.toNat then none else some .eIndex
    | .getpx idx => if idx < s.nlen.toNat then none else some .eIndex
    | .begin => none
    | .allon _ _ _ _ => none
    | .alloff => none
    | .showFrame => none
    | .destroy => none
    | .status => none
  else some .eLifecycle

/-- The answer of a command that ends with an error (R113): the response `(E_X, 0)` without events, `ERR` set if it was 0, and
nothing else changed. -/
def errorAnswer (e : Status) (s : State) : Host.Outcome State Fault Refusal :=
  .next { s with err := if s.err = 0 then e.code else s.err, trace := s.trace ++ [.response ⟨e, 0⟩ []] }

/-- A packet the block may hold (R22): bits 31 and 30 are 0, and it is 0 or a value built by the encoder. -/
def builtPacket (P : Params) (p : Packet) : Prop :=
  p.getLsbD 31 = false ∧ p.getLsbD 30 = false ∧ (p = 0 ∨ ∃ r g b gc, p = encodeColor P r g b gc)

/-- What the counters of a command under way may be (R27, R84, R105). -/
def Work.ok (P : Params) (s : State) : Work → Prop
  | .filling .construct k n v =>
    s.life.live = false ∧ 1 ≤ n ∧ n ≤ P.maxN ∧ k ≤ n ∧ v = 0 ∧ ∀ i, i < k → memFind s.buf i = some 0
  | .filling .frame k n v => s.life = .ready ∧ n = s.nlen.toNat ∧ k ≤ n ∧ builtPacket P v
  | .sending k _ => s.life = .ready ∧ k < s.nlen.toNat
  | .latchSetup t => s.life = .ready ∧ 1 ≤ t
  | .latchHigh t => s.life = .ready ∧ 1 ≤ t
  | .finishing => s.life = .ready

/-- The hidden state is one a run can reach. -/
def Sequencer.ok (P : Params) (s : State) : Sequencer → Prop
  | .idle => True
  | .responding _ _ => True
  | .busy w _ => w.ok P s

/-- The latch pulse is under way: the only time `LATCH_Q` is 1 (R17). -/
def Sequencer.inPulse : Sequencer → Bool
  | .idle => false
  | .responding _ _ => false
  | .busy w _ =>
    match w with
    | .filling _ _ _ _ => false
    | .sending _ _ => false
    | .latchSetup _ => false
    | .latchHigh _ => true
    | .finishing => false

/-- The block's invariant, at transaction and at cycle level. -/
structure Inv (P : Params) (s : State) : Prop where
  /-- R23: an instance exists exactly when `1 <= NLEN <= MAX_N`. -/
  live_iff : s.life.live = true ↔ 1 ≤ s.nlen.toNat ∧ s.nlen.toNat ≤ P.maxN
  /-- R23: in the other states `NLEN` = 0. -/
  no_instance : s.life.live = false → s.nlen = 0
  /-- R24 -/
  latchOe_iff : s.latchOe = true ↔ s.life = .ready
  /-- R24 -/
  spiEn_iff : s.spiEn = true ↔ s.life = .ready
  /-- R17, R24: `LATCH_Q` is 1 only inside the latch pulse, so 0 between commands. -/
  latchQ_iff : s.latchQ = true ↔ s.seq.inPulse = true
  /-- R26 -/
  err_le : s.err.toNat ≤ 4
  /-- the memory's canonical form -/
  buf_wf : s.buf.wf
  /-- R20: BUF has `MAX_N` entries. -/
  buf_bound : ∀ i p, memFind s.buf i = some p → i < P.maxN
  /-- R22 -/
  packets : s.life.live = true → ∀ i, i < s.nlen.toNat → ∃ p, memFind s.buf i = some p ∧ builtPacket P p
  /-- R27 -/
  seq_ok : s.seq.ok P s

/-- The output levels, in the order `LATCH_OE`, `LATCH_Q`, `SPI_EN`. -/
structure Levels where
  latchOe : Bool
  latchQ : Bool
  spiEn : Bool
  deriving DecidableEq, Repr

/-- The levels of a state. -/
def State.levels (s : State) : Levels := ⟨s.latchOe, s.latchQ, s.spiEn⟩

/-- The levels after some events, if each level event is a change of its level (R33). -/
def followEvents : List Event → Levels → Option Levels
  | [], l => some l
  | .byte _ :: es, l => followEvents es l
  | .latch v :: es, l => if l.latchQ = v then none else followEvents es { l with latchQ := v }
  | .latchDrive d :: es, l => if l.latchOe = d then none else followEvents es { l with latchOe := d }
  | .spiEnable e :: es, l => if l.spiEn = e then none else followEvents es { l with spiEn := e }

/-- The sticky error an observation implies: the first nonzero status since the last reset (R19, R114). -/
def errorOfTrace (t : List Obs) : BitVec 4 :=
  t.foldl (fun e o => match o with
    | .response r _ => stickyErr e r.status
    | .reset _ _ _ => 0) 0

/-- The packets of BUF at indexes `k` to `k + count - 1`. -/
def packetsFrom (s : State) (k : Nat) : Nat → List Packet
  | 0 => []
  | count + 1 => bufRead s k :: packetsFrom s (k + 1) count

/-- SETPX with gamma at the indexes 0 to `n - 1`, one command after the other (R106). -/
def setEveryPixel (P : Params) (r g b : Int) : Nat → State → State
  | 0, s => s
  | n + 1, s => (doSetpx P n r g b true (setEveryPixel P r g b n s)).record

/-- The host's duty of R30(d) and R126(a) along a run of edges: while `cmd_valid` = 1 and the block does not accept, `cmd_word`
stays the same. DESIGN CHOICE (log entry 21): whether the host may drop `cmd_valid` before its word is accepted the spec leaves
open, and this duty leaves it free: only a word that is still presented at the next edge is held to be the same. -/
def cmdHeldStable (P : Params) : List PortsIn → State → Prop
  | [], _ => True
  | [_], _ => True
  | p :: q :: ps, s =>
    (p.cmdValid = true → accepts p s = false → q.cmdValid = true → q.cmdWord = p.cmdWord) ∧
      cmdHeldStable P (q :: ps) (clockEdge P p s)

/-- The state after `n` edges of an endless stream of input ports. -/
def stateAt (P : Params) (p : Nat → PortsIn) (s : State) : Nat → State
  | 0 => s
  | n + 1 => clockEdge P (p n) (stateAt P p s n)

/-- Transport fairness along a stream of edges (R139): every byte the block presents is eventually completed. -/
def transportFair (P : Params) (p : Nat → PortsIn) (s : State) : Prop :=
  ∀ n b, txPresented (stateAt P p s n) = some b → ∃ m, n ≤ m ∧ (p m).txDone = true

/-- The clock edges a command under way still needs until its response is presented, if every byte completes at the first edge
it is presented at (R138, R139). -/
def workLeft (P : Params) (s : State) : Work → Nat
  | .filling .construct k n _ => n - k + 1
  | .filling .frame k n _ => n - k + 1 + 4 * s.nlen.toNat + P.latchSetup + P.latchHigh + 1
  | .sending k j => 4 * k + (4 - j.val) + P.latchSetup + P.latchHigh + 1
  | .latchSetup t => t + P.latchHigh + 1
  | .latchHigh t => t + 1
  | .finishing => 1

end Sys2Proof.Machine
end

