-- ==== Sys2Proof/Certificates/Slice0/Obligations.lean ====
section
/-! DEFINITION. The statements for the provers. Each docstring names the rule of spec/ it formalises. -/

open Sys2Proof Sys2Proof.Machine

/-! ## Reset, step, decoding -/

/-- R35: the state and the ports after reset. "Every BUF entry is unspecified" is the model's form of it: every index reads as
a free value (log entry 3). -/
def Obligations.ResetLeavesTheStatedState : Prop :=
  State.reset.life = .empty ∧ State.reset.nlen = 0 ∧ State.reset.latchOe = false ∧ State.reset.latchQ = false ∧
    State.reset.spiEn = false ∧ State.reset.err = 0 ∧
    (∀ i, bufRead State.reset i = Config.unspecifiedPacket State.reset.freeIx i) ∧
    State.reset.seq = .idle ∧ portsOut true State.reset = ⟨true, none, none, false, false, false⟩

/-- The invariant of R22 to R24 and R26 holds at reset. -/
def Obligations.ResetMeetsTheInvariant : Prop := Inv Config.params State.reset

/-- R22 to R24, R26: the invariant is kept by every step: a command, an illegal word, a clock edge, a reset, or waiting. -/
def Obligations.EveryStepKeepsTheInvariant : Prop :=
  ∀ s t : State, Inv Config.params s → step s = .next t → Inv Config.params t

/-- R59: a step on a command word that decodes is `execute` of the command, the word taken from the host's inputs. -/
def Obligations.StepRunsTheDecodedCommand : Prop :=
  ∀ (s : State) (w : Word) (rest : List HostInput) (i : Instr),
    s.seq = .idle → s.host = .command w :: rest → decode w = .cmd i → step s = exec i { s with host := rest }

/-- The host's placement of a word: the very next step runs the command it decodes to, and a block that is idle is otherwise as it was. -/
def Obligations.PlacedWordRunsNext : Prop :=
  ∀ (s : State) (nbits w : Nat) (i : Instr), s.seq = .idle → decodeTableWord nbits w = some i →
    step (s.withFetchWord nbits w) = exec i s

/-- R34, R124: the model is a total function of the state: every step ends in a next state, by the next input. A command's step is the
transaction model's `step(P, S, w)` with its response and events added to the observation; an edge's step is the edge of the
cycle-level machine with the sampled ports. A block that still holds a command from earlier edges when a whole command is presented,
or when nothing is, completes what it holds (the model's choice, log entry 12), and an idle block with nothing presented keeps its
state. How the inputs stand in State is log entry 5. -/
def Obligations.EveryStepTakesTheNextInput : Prop :=
  (∀ s : State, ∃ t, step s = .next t) ∧
  (∀ (s : State) (w : Word) (rest : List HostInput), s.seq = .idle → s.host = .command w :: rest →
    step s = .next (transact Config.params w { s with host := rest }).record) ∧
  (∀ (s : State) (p : PortsIn) (rest : List HostInput), s.host = .edge p :: rest →
    step s = .next (clockEdge Config.params p { s with host := rest })) ∧
  (∀ (s : State) (w : Word) (rest : List HostInput), s.seq ≠ .idle → s.host = .command w :: rest →
    step s = .next (complete s) ∧ (complete s).seq = .idle ∧ (complete s).host = s.host) ∧
  (∀ s : State, s.host = [] → step s = .next (complete s)) ∧
  (∀ s : State, s.host = [] → s.seq = .idle → step s = .next s)

/-- R60, R61, R109: exactly the words with a reserved opcode, and the words with a listed opcode and a 1 in a must-be-zero bit, are
illegal; an illegal word has the error outcome `E_ILLEGAL` in every state and no other effect. -/
def Obligations.ReservedWordsAreIllegal : Prop :=
  ∀ (w : Word),
    (decode w = .illegal .reservedOpcode ↔ opField w = 0 ∨ 0x0B ≤ (opField w).toNat) ∧
    (decode w = .illegal .mustBeZero ↔ ∃ i : Instr, opField w = opField (matchWord i) ∧ w &&& maskWord i ≠ matchWord i) ∧
    (∀ (P : Params) (s : State) (why : Illegal), decode w = .illegal why →
      transact P w s = ⟨{ s with err := if s.err = 0 then 1 else s.err }, ⟨.eIllegal, 0⟩, []⟩)

/-- R109 at the machine's step: a word that `decode` maps to ILLEGAL raises `E_ILLEGAL`, whatever `LIFE` is. -/
def Obligations.IllegalWordAnswersEIllegal : Prop :=
  ∀ (s : State) (w : Word) (rest : List HostInput) (why : Illegal),
    s.seq = .idle → s.host = .command w :: rest → decode w = .illegal why →
    step s = errorAnswer .eIllegal { s with host := rest }

/-- R59, R56: the decoder is the spec's table, read from the word's fields, and `step(P, S, w)` is `raise E_ILLEGAL` or `execute`. -/
def Obligations.DecodeIsTheStatedTable : Prop :=
  ∀ (w : Word),
    (let fl := w.extractLsb' 64 8
     let i := (w.extractLsb' 48 16).toNat
     let r := (w.extractLsb' 32 16).toInt
     let g := (w.extractLsb' 16 16).toInt
     let b := (w.extractLsb' 0 16).toInt
     (decode w).toInstr? =
       match (w.extractLsb' 72 8).toNat with
       | 0x01 => if fl = 0 ∧ w.extractLsb' 0 48 = 0 then some (.construct i) else none
       | 0x02 => if w.extractLsb' 0 72 = 0 then some .begin else none
       | 0x03 => if fl.extractLsb' 1 7 = 0 then some (.setpx i r g b (fl.getLsbD 0)) else none
       | 0x04 => if fl = 0 ∧ w.extractLsb' 0 48 = 0 then some (.unsetpx i) else none
       | 0x05 => if fl.extractLsb' 1 7 = 0 ∧ w.extractLsb' 48 16 = 0 then some (.allon r g b (fl.getLsbD 0)) else none
       | 0x06 => if w.extractLsb' 0 72 = 0 then some .alloff else none
       | 0x07 => if w.extractLsb' 0 72 = 0 then some .showFrame else none
       | 0x08 => if fl = 0 ∧ w.extractLsb' 0 48 = 0 then some (.getpx i) else none
       | 0x09 => if w.extractLsb' 0 72 = 0 then some .destroy else none
       | 0x0A => if w.extractLsb' 0 72 = 0 then some .status else none
       | _ => none) ∧
    (∀ (P : Params) (s : State),
      transact P w s =
        match (decode w).toInstr? with
        | some i => perform P i s
        | none => raise .eIllegal s)

/-- R58: a word spells mnemonic M exactly when `(w & mask_M) == match_M`, and no word matches two rows. -/
def Obligations.MaskAndMatchSpellTheCommand : Prop :=
  ∀ (w : Word) (i : Instr),
    ((∃ i', decode w = .cmd i' ∧ matchWord i' = matchWord i) ↔ w &&& maskWord i = matchWord i) ∧
    (∀ j : Instr, w &&& maskWord i = matchWord i → w &&& maskWord j = matchWord j → matchWord i = matchWord j)

/-- Decoding the encoding of a well-formed command gives it back, with every operand at every value its field admits. -/
def Obligations.DecodeOfEncodeIsTheCommand : Prop :=
  ∀ i : Instr, i.wellFormed = true → decode (encode i) = .cmd i

/-- A word that decodes to a command is that command's encoding, and the command is well-formed: no bit of a legal word is
ignored (R61). -/
def Obligations.EncodeOfDecodeIsTheWord : Prop :=
  ∀ (w : Word) (i : Instr), decode w = .cmd i → i.wellFormed = true ∧ encode i = w

/-- Words written out from the field positions of R51 and the opcodes of R57 (the vectors of 95_test_vectors.md). -/
def Obligations.SampleWordsDecode : Prop :=
  decode 0x0100FFFF000000000000#80 = .cmd (.construct 65535) ∧
  decode 0x02000000000000000000#80 = .cmd .begin ∧
  decode 0x03000001FFFB07D00200#80 = .cmd (.setpx 1 (-5) 2000 512 false) ∧
  decode 0x0301FFFF800080008000#80 = .cmd (.setpx 65535 (-32768) (-32768) (-32768) true) ∧
  decode 0x0400FFFF000000000000#80 = .cmd (.unsetpx 65535) ∧
  decode 0x0501000003FF00000000#80 = .cmd (.allon 1023 0 0 true) ∧
  decode 0x06000000000000000000#80 = .cmd .alloff ∧
  decode 0x07000000000000000000#80 = .cmd .showFrame ∧
  decode 0x08000001000000000000#80 = .cmd (.getpx 1) ∧
  decode 0x09000000000000000000#80 = .cmd .destroy ∧
  decode 0x0A000000000000000000#80 = .cmd .status

/-! ## The codec -/

/-- R67: the clamp saturates to [0, 1023]. -/
def Obligations.ClampSaturates : Prop :=
  ∀ x : Int, (x < 0 → clamp10 x = 0) ∧ (1023 < x → clamp10 x = 1023) ∧
    (0 ≤ x → x ≤ 1023 → ((clamp10 x).toNat : Int) = x)

/-- R70: the configuration's gamma table has P2 and P3 (P1 is its type), and its other parameters meet R7. -/
def Obligations.ConfigurationIsValid : Prop := Config.params.Valid

/-- The model fixes nothing more of the gamma table than R70 does: a table with P2 and P3 is left as it is by `gammaTable`
(log entry 1). -/
def Obligations.GammaTableAllowsEveryValidTable : Prop :=
  ∀ f : U10 → U10, f 0 = 0 → f 1023 = 1023 →
    (∀ x y : U10, x.toNat ≤ y.toNat → (f x).toNat ≤ (f y).toNat) → ∀ x, gammaTable f x = f x

/-- R71: `enc_channel` clamps first and then, if `gc` = 1, looks the clamped value up in the table; and R80 (its last sentence):
gamma changes nothing for inputs at or beyond the end points. -/
def Obligations.ChannelIsClampedThenLookedUp : Prop :=
  (∀ (P : Params) (x : Int), encChannel P x true = P.gamma (clamp10 x) ∧ encChannel P x false = clamp10 x) ∧
  (∀ (P : Params) (x : Int), P.Valid → (x ≤ 0 ∨ 1023 ≤ x) → encChannel P x true = encChannel P x false)

/-- R79: under every layout the decoder gives back the packed channels with the spare bit 0; packing is injective, below 2^30,
and independent of the layout for all-zero and all-one channels. -/
def Obligations.PackedPacketDecodesBack : Prop :=
  ∀ (l : PwmLayout),
    (∀ r g b : U10, decodePacket l (packPwm l r g b) = .pwm r g b false ∧ (packPwm l r g b).toNat < 2 ^ 30) ∧
    (∀ r g b r' g' b' : U10, packPwm l r g b = packPwm l r' g' b' → r = r' ∧ g = g' ∧ b = b') ∧
    packPwm l 0 0 0 = 0 ∧ packPwm l 1023 1023 1023 = 0x3FFFFFFF

/-- R75 under the default layout: `p[29:20] = b`, `p[19:10] = r`, `p[9:0] = g`; and R74 under every layout: bits 31 and 30 of
every packet the encoder builds are 0. -/
def Obligations.PacketFieldsStandWhereStated : Prop :=
  (∀ r g b : U10, (packPwm .brg r g b).extractLsb' 20 10 = b ∧ (packPwm .brg r g b).extractLsb' 10 10 = r ∧
    (packPwm .brg r g b).extractLsb' 0 10 = g) ∧
  (∀ (P : Params) (r g b : Int) (gc : Bool),
    (encodeColor P r g b gc).getLsbD 31 = false ∧ (encodeColor P r g b gc).getLsbD 30 = false)

/-- R82: the simulation stand-in is `floor(1023 * (x / 1023)^2.8 + 1/2)`, and it has P2 and P3 of R70. -/
def Obligations.StandInTableIsTheCurve : Prop :=
  (∀ x : U10, (gammaRef x).toNat = ⌊1023 * ((x.toNat : ℝ) / 1023) ^ (2.8 : ℝ) + 1 / 2⌋₊) ∧
  (∀ x y : U10, x.toNat ≤ y.toNat → (gammaRef x).toNat ≤ (gammaRef y).toNat) ∧
  gammaRef 0 = 0 ∧ gammaRef 1023 = 1023

/-! ## Lifecycle commands -/

/-- R84: CONSTRUCT. Its encoding and operand. From EMPTY or DESTROYED, with `1 <= n <= MAX_N`, it zeroes the entries 0 to n-1,
leaves every other entry, sets NLEN and LIFE, and answers `(OK, 0)` with no events; on a live instance it is `E_LIFECYCLE`, and with
another n `E_ALLOC`, with S unchanged except ERR. -/
def Obligations.ConstructMakesAZeroedInstance : Prop :=
  (∀ w : Word, opField w = 0x01 → w.extractLsb' 64 8 = 0 → w.extractLsb' 0 48 = 0 →
    decode w = .cmd (.construct (w.extractLsb' 48 16).toNat)) ∧
  ∀ (n : Nat) (s : State),
    (s.life = .empty ∨ s.life = .destroyed → 1 ≤ n → n ≤ Config.params.maxN →
      ∃ t, exec (.construct n) s = .next t ∧
        t = { s with buf := t.buf, nlen := t.nlen, life := .constructed, trace := s.trace ++ [.response ⟨.ok, 0⟩ []] } ∧
        t.nlen.toNat = n ∧ (∀ i, i < n → bufRead t i = 0) ∧ (∀ i, n ≤ i → bufRead t i = bufRead s i)) ∧
    (s.life = .constructed ∨ s.life = .ready → exec (.construct n) s = errorAnswer .eLifecycle s) ∧
    (s.life = .empty ∨ s.life = .destroyed → n = 0 ∨ Config.params.maxN < n →
      exec (.construct n) s = errorAnswer .eAlloc s)

/-- R85: BEGIN. Its encoding. In CONSTRUCTED (where by R24 all levels are 0) it drives the latch pin low, then enables the
transport; in any other state it is `E_LIFECYCLE`. -/
def Obligations.BeginDrivesTheLatchAndTheTransport : Prop :=
  (∀ w : Word, opField w = 0x02 → w.extractLsb' 0 72 = 0 → decode w = .cmd .begin) ∧
  ∀ s : State,
    (s.life = .constructed → s.levels = ⟨false, false, false⟩ →
      exec .begin s = .next { s with
        latchOe := true, spiEn := true, life := .ready,
        trace := s.trace ++ [.response ⟨.ok, 0⟩ [.latchDrive true, .spiEnable true]] }) ∧
    (s.life ≠ .constructed → exec .begin s = errorAnswer .eLifecycle s)

/-- R86: DESTROY. Its encoding. It sets NLEN to 0, makes every BUF entry unspecified (free values, log entry 3), releases the latch pin and
disables the transport with an event for each level that was 1, and sets LIFE; without an instance it is `E_LIFECYCLE`. -/
def Obligations.DestroyEndsTheInstance : Prop :=
  (∀ w : Word, opField w = 0x09 → w.extractLsb' 0 72 = 0 → decode w = .cmd .destroy) ∧
  ∀ s : State,
    (s.life = .constructed ∨ s.life = .ready →
      ∃ t, exec .destroy s = .next t ∧
        t = { s with
          nlen := 0, buf := t.buf, freeIx := t.freeIx, latchOe := false, spiEn := false, life := .destroyed,
          trace := s.trace ++ [.response ⟨.ok, 0⟩
            ((if s.latchOe = true then [.latchDrive false] else []) ++ (if s.spiEn = true then [.spiEnable false] else []))] } ∧
        (∀ i, bufRead t i = Config.unspecifiedPacket t.freeIx i) ∧ t.freeIx ≠ s.freeIx) ∧
    (s.life = .empty ∨ s.life = .destroyed →
      exec .destroy s = errorAnswer .eLifecycle s)

/-- R87: STATUS. Its encoding; it answers the status word in every LIFE state and changes nothing, ERR included. -/
def Obligations.StatusAnswersTheStatusWord : Prop :=
  (∀ w : Word, opField w = 0x0A → w.extractLsb' 0 72 = 0 → decode w = .cmd .status) ∧
  ∀ s : State, exec .status s = .next { s with trace := s.trace ++ [.response ⟨.ok, statusWord s⟩ []] }

/-- R25: the layout of the status word, with the encoding of LIFE (R14). -/
def Obligations.StatusWordLayout : Prop :=
  ∀ s : State,
    ((statusWord s).extractLsb' 0 2 =
      match s.life with | .empty => 0 | .constructed => 1 | .ready => 2 | .destroyed => 3) ∧
    (statusWord s).getLsbD 2 = s.latchOe ∧ (statusWord s).getLsbD 3 = s.latchQ ∧ (statusWord s).getLsbD 4 = s.spiEn ∧
    (statusWord s).extractLsb' 5 3 = 0 ∧ (statusWord s).extractLsb' 8 4 = s.err ∧
    (statusWord s).extractLsb' 12 4 = 0 ∧ (statusWord s).extractLsb' 16 16 = s.nlen

/-- R83: the lifecycle table and the transitions. A command the table refuses has the error outcome `E_LIFECYCLE` and nothing
else happens; one it admits never answers `E_LIFECYCLE`; and LIFE changes only by a successful CONSTRUCT, BEGIN or DESTROY. -/
def Obligations.LifecycleTableIsEnforced : Prop :=
  ∀ (i : Instr) (s : State),
    (admits i s.life = false →
      exec i s = errorAnswer .eLifecycle s) ∧
    (admits i s.life = true →
      ∃ t r evs, exec i s = .next t ∧ t.trace = s.trace ++ [.response r evs] ∧ r.status ≠ .eLifecycle ∧
        t.life =
          match i, r.status with
          | .construct _, .ok => .constructed
          | .begin, .ok => .ready
          | .destroy, .ok => .destroyed
          | _, _ => s.life)

/-- R89: while an instance exists, no word but DESTROY's changes NLEN or ends the instance; and in any state no word but those of
CONSTRUCT and DESTROY writes NLEN. -/
def Obligations.ChainLengthIsFixed : Prop :=
  ∀ (P : Params) (w : Word) (s : State), decode w ≠ .cmd .destroy →
    (s.life.live = true → (transact P w s).state.nlen = s.nlen ∧ (transact P w s).state.life.live = true) ∧
    ((∀ n, decode w ≠ .cmd (.construct n)) → (transact P w s).state.nlen = s.nlen)

/-! ## Pixel commands -/

/-- R91: SETPX. Its encoding and operands. On a legal index it stores the encoded colour at that index and changes nothing else;
without an instance it is `E_LIFECYCLE`, and with another index `E_INDEX`. -/
def Obligations.SetpxStoresTheEncodedColour : Prop :=
  (∀ w : Word, opField w = 0x03 → w.extractLsb' 65 7 = 0 →
    decode w = .cmd (.setpx (w.extractLsb' 48 16).toNat (w.extractLsb' 32 16).toInt (w.extractLsb' 16 16).toInt
      (w.extractLsb' 0 16).toInt (w.getLsbD 64))) ∧
  ∀ (i : Nat) (r g b : Int) (gc : Bool) (s : State),
    ((s.life = .constructed ∨ s.life = .ready) → i < s.nlen.toNat →
      ∃ t, exec (.setpx i r g b gc) s = .next t ∧
        t = { s with buf := t.buf, trace := s.trace ++ [.response ⟨.ok, 0⟩ []] } ∧
        bufRead t i = encodeColor Config.params r g b gc ∧ (∀ j, j ≠ i → bufRead t j = bufRead s j)) ∧
    (s.life = .empty ∨ s.life = .destroyed → exec (.setpx i r g b gc) s = errorAnswer .eLifecycle s) ∧
    (s.life = .constructed ∨ s.life = .ready → s.nlen.toNat ≤ i → exec (.setpx i r g b gc) s = errorAnswer .eIndex s)

/-- R92: UNSETPX. Its encoding and operand. On a legal index it stores the zero packet under every layout and gamma table and
changes nothing else; without an instance it is `E_LIFECYCLE`, and with another index `E_INDEX`; and in every state it is SETPX of
black, with gamma or without. -/
def Obligations.UnsetpxStoresZero : Prop :=
  (∀ w : Word, opField w = 0x04 → w.extractLsb' 64 8 = 0 → w.extractLsb' 0 48 = 0 →
    decode w = .cmd (.unsetpx (w.extractLsb' 48 16).toNat)) ∧
  ∀ (i : Nat) (s : State),
    ((s.life = .constructed ∨ s.life = .ready) → i < s.nlen.toNat →
      ∃ t, exec (.unsetpx i) s = .next t ∧
        t = { s with buf := t.buf, trace := s.trace ++ [.response ⟨.ok, 0⟩ []] } ∧
        bufRead t i = 0 ∧ (∀ j, j ≠ i → bufRead t j = bufRead s j)) ∧
    (s.life = .empty ∨ s.life = .destroyed → exec (.unsetpx i) s = errorAnswer .eLifecycle s) ∧
    (s.life = .constructed ∨ s.life = .ready → s.nlen.toNat ≤ i → exec (.unsetpx i) s = errorAnswer .eIndex s) ∧
    (∀ gc, exec (.unsetpx i) s = exec (.setpx i 0 0 0 gc) s)

/-- R93: GETPX. Its encoding and operand. On a legal index it answers the stored packet and changes nothing; without an instance
it is `E_LIFECYCLE`, and with another index `E_INDEX`. -/
def Obligations.GetpxAnswersTheStoredPacket : Prop :=
  (∀ w : Word, opField w = 0x08 → w.extractLsb' 64 8 = 0 → w.extractLsb' 0 48 = 0 →
    decode w = .cmd (.getpx (w.extractLsb' 48 16).toNat)) ∧
  ∀ (i : Nat) (s : State),
    ((s.life = .constructed ∨ s.life = .ready) → i < s.nlen.toNat →
      exec (.getpx i) s = .next { s with trace := s.trace ++ [.response ⟨.ok, bufRead s i⟩ []] }) ∧
    (s.life = .empty ∨ s.life = .destroyed → exec (.getpx i) s = errorAnswer .eLifecycle s) ∧
    (s.life = .constructed ∨ s.life = .ready → s.nlen.toNat ≤ i → exec (.getpx i) s = errorAnswer .eIndex s)

/-- R90: the checks of the pixel commands, LIFE first and then the index; a failed check touches nothing but ERR. -/
def Obligations.PixelCommandsCheckLifeThenIndex : Prop :=
  ∀ (i : Nat) (c : Instr) (s : State),
    (c = .unsetpx i ∨ c = .getpx i ∨ ∃ r g b gc, c = .setpx i r g b gc) →
    (s.life = .empty ∨ s.life = .destroyed →
      exec c s = errorAnswer .eLifecycle s) ∧
    (s.life = .constructed ∨ s.life = .ready → s.nlen.toNat ≤ i →
      exec c s = errorAnswer .eIndex s)

/-- R94: SETPX, UNSETPX and GETPX emit no events and never change LATCH_OE, LATCH_Q, SPI_EN, LIFE or NLEN. -/
def Obligations.PixelCommandsAreSilent : Prop :=
  ∀ (i : Nat) (c : Instr) (s : State),
    (c = .unsetpx i ∨ c = .getpx i ∨ ∃ r g b gc, c = .setpx i r g b gc) →
    ∃ t r, exec c s = .next t ∧ t.trace = s.trace ++ [.response r []] ∧
      t.latchOe = s.latchOe ∧ t.latchQ = s.latchQ ∧ t.spiEn = s.spiEn ∧ t.life = s.life ∧ t.nlen = s.nlen

/-- R95: the same SETPX twice in a row gives the same S, response and (empty) event list as once. -/
def Obligations.SetpxIsIdempotent : Prop :=
  ∀ (i : Nat) (r g b : Int) (gc : Bool) (s : State),
    ∃ t u rsp, exec (.setpx i r g b gc) s = .next t ∧ exec (.setpx i r g b gc) t = .next u ∧
      t.trace = s.trace ++ [.response rsp []] ∧ u = { t with trace := t.trace ++ [.response rsp []] }

/-- R96: a successful SETPX followed by GETPX of the same index, with any writes to other indexes between the two, answers the
encoded colour, which decodes to the three channels, each clamped and, with gamma, looked up (R71). -/
def Obligations.GetpxAfterSetpxAnswersTheColour : Prop :=
  ∀ (P : Params) (i : Nat) (r g b : Int) (gc : Bool) (between : List Instr) (s : State),
    (s.life = .constructed ∨ s.life = .ready) → i < s.nlen.toNat →
    (∀ c ∈ between, (∃ j, j ≠ i ∧ c = .unsetpx j) ∨ ∃ j r' g' b' gc', j ≠ i ∧ c = .setpx j r' g' b' gc') →
    (doGetpx i (between.foldl (fun t c => (perform P c t).record) (doSetpx P i r g b gc s).record)).rsp =
        ⟨.ok, encodeColor P r g b gc⟩ ∧
      decodePacket P.layout (encodeColor P r g b gc) =
        .pwm (if gc = true then P.gamma (clamp10 r) else clamp10 r) (if gc = true then P.gamma (clamp10 g) else clamp10 g)
          (if gc = true then P.gamma (clamp10 b) else clamp10 b) false

/-! ## Frame commands -/

/-- R102, R42: the events of a successful frame command, by position. There are `4 * NLEN` bytes and the two latch events; byte `j`
of the packet at position `m` is bits `31-8j : 24-8j` of `BUF[NLEN-1-m]`, as the command left it. -/
def Obligations.FrameBytesGoHighestIndexFirst : Prop :=
  ∀ (i : Instr) (s : State), (i = .showFrame ∨ i = .alloff ∨ ∃ r g b gc, i = .allon r g b gc) →
    s.life = .ready → s.latchQ = false →
    ∃ t evs, exec i s = .next t ∧ t.trace = s.trace ++ [.response ⟨.ok, 0⟩ evs] ∧ t.nlen = s.nlen ∧
      evs.length = 4 * s.nlen.toNat + 2 ∧
      (∀ (m : Nat) (j : Fin 4), m < s.nlen.toNat →
        evs[4 * m + j.val]? = some (.byte ((bufRead t (s.nlen.toNat - 1 - m)).extractLsb' (24 - 8 * j.val) 8))) ∧
      evs[4 * s.nlen.toNat]? = some (.latch true) ∧ evs[4 * s.nlen.toNat + 1]? = some (.latch false)

/-- R99, R98: SHOW. Its encoding. In READY (where by R24 LATCH_Q is 0) it sends the frame and one latch pulse and leaves the state,
the buffer with it, as it was; in any other state it is `E_LIFECYCLE`. -/
def Obligations.ShowSendsTheBufferAndLatches : Prop :=
  (∀ w : Word, opField w = 0x07 → w.extractLsb' 0 72 = 0 → decode w = .cmd .showFrame) ∧
  ∀ s : State,
    (s.life = .ready → s.latchQ = false →
      exec .showFrame s = .next { s with
        trace := s.trace ++ [.response ⟨.ok, 0⟩ (frameBytes s s.nlen.toNat ++ [.latch true, .latch false])] }) ∧
    (s.life ≠ .ready → exec .showFrame s = errorAnswer .eLifecycle s)

/-- R100: ALLON. Its encoding and operands. In READY it writes the encoded colour to every entry below NLEN and sends the frame:
NLEN times the four bytes of the packet, then the pulse; in any other state it is `E_LIFECYCLE`. -/
def Obligations.AllonFillsAndSends : Prop :=
  (∀ w : Word, opField w = 0x05 → w.extractLsb' 65 7 = 0 → w.extractLsb' 48 16 = 0 →
    decode w = .cmd (.allon (w.extractLsb' 32 16).toInt (w.extractLsb' 16 16).toInt (w.extractLsb' 0 16).toInt
      (w.getLsbD 64))) ∧
  ∀ (r g b : Int) (gc : Bool) (s : State),
    (s.life = .ready → s.latchQ = false →
      ∃ t, exec (.allon r g b gc) s = .next t ∧
        t = { s with
          buf := t.buf
          trace := s.trace ++ [.response ⟨.ok, 0⟩
            ((List.replicate s.nlen.toNat (packetBytes (encodeColor Config.params r g b gc))).flatten ++
              [.latch true, .latch false])] } ∧
        (∀ i, i < s.nlen.toNat → bufRead t i = encodeColor Config.params r g b gc) ∧
        (∀ i, s.nlen.toNat ≤ i → bufRead t i = bufRead s i)) ∧
    (s.life ≠ .ready → exec (.allon r g b gc) s = errorAnswer .eLifecycle s)

/-- R101: ALLOFF. Its encoding. In READY it writes 0 to every entry below NLEN and sends `4 * NLEN` zero bytes, then the pulse; a
GETPX of any index below NLEN then answers 0; in any other state it is `E_LIFECYCLE`. -/
def Obligations.AlloffClearsAndSends : Prop :=
  (∀ w : Word, opField w = 0x06 → w.extractLsb' 0 72 = 0 → decode w = .cmd .alloff) ∧
  ∀ s : State,
    (s.life = .ready → s.latchQ = false →
      ∃ t, exec .alloff s = .next t ∧
        t = { s with
          buf := t.buf
          trace := s.trace ++ [.response ⟨.ok, 0⟩
            (List.replicate (4 * s.nlen.toNat) (.byte 0) ++ [.latch true, .latch false])] } ∧
        (∀ i, i < s.nlen.toNat → bufRead t i = 0 ∧
          exec (.getpx i) t = .next { t with trace := t.trace ++ [.response ⟨.ok, 0⟩ []] }) ∧
        (∀ i, s.nlen.toNat ≤ i → bufRead t i = bufRead s i)) ∧
    (s.life ≠ .ready → exec .alloff s = errorAnswer .eLifecycle s)

/-- R97: outside READY a frame command is `E_LIFECYCLE` and changes nothing else; in READY (in a state of the invariant, R24) the
transport is enabled and the latch pin driven. -/
def Obligations.FrameCommandsNeedReady : Prop :=
  (∀ (c : Instr) (s : State), (c = .showFrame ∨ c = .alloff ∨ ∃ r g b gc, c = .allon r g b gc) → s.life ≠ .ready →
    exec c s = errorAnswer .eLifecycle s) ∧
  (∀ (P : Params) (s : State), Inv P s → s.life = .ready → s.spiEn = true ∧ s.latchOe = true)

/-- R106: ALLON.G gives the same final state, response and events as SETPX.G for every index from 0 to NLEN-1 and then SHOW;
the only difference is NLEN extra `(OK, 0)` responses. And ALLOFF followed by GETPX of any index below NLEN answers `(OK, 0)`. -/
def Obligations.AllonEqualsSettingEveryPixelThenShow : Prop :=
  ∀ (r g b : Int) (s : State), s.life = .ready →
    (∃ t v o, exec (.allon r g b true) s = .next t ∧
      exec .showFrame (setEveryPixel Config.params r g b s.nlen.toNat s) = .next v ∧
      t = { v with trace := s.trace ++ [o] } ∧
      v.trace = s.trace ++ List.replicate s.nlen.toNat (.response ⟨.ok, 0⟩ []) ++ [o]) ∧
    (∃ u, exec .alloff s = .next u ∧ ∀ i, i < s.nlen.toNat →
      exec (.getpx i) u = .next { u with trace := u.trace ++ [.response ⟨.ok, 0⟩ []] })

/-! ## Errors and the observation -/

/-- R113: a word whose response is an error answers `(E_X, 0)`, updates the sticky field, writes no other field and emits no event;
any other word leaves the sticky field. -/
def Obligations.ErrorsHaveNoOtherEffect : Prop :=
  ∀ (P : Params) (w : Word) (s : State),
    ((transact P w s).rsp.status ≠ .ok →
      transact P w s =
        ⟨{ s with err := if s.err = 0 then (transact P w s).rsp.status.code else s.err },
          ⟨(transact P w s).rsp.status, 0⟩, []⟩) ∧
    ((transact P w s).rsp.status = .ok → (transact P w s).state.err = s.err)

/-- R115, R110 to R112: which error a word ends with: `E_ILLEGAL`, then `E_LIFECYCLE`, then `E_INDEX` or `E_ALLOC`; without one it is
carried out and answers OK. -/
def Obligations.ErrorPriorityIsAsStated : Prop :=
  ∀ (P : Params) (w : Word) (s : State),
    (transact P w s).rsp.status =
      match decode w with
      | .illegal _ => .eIllegal
      | .cmd i => (errorOf P i s).getD .ok

/-- R114, R19: ERR is the first nonzero status since the last reset; every word and every reset keep this, and STATUS reads it. -/
def Obligations.ErrIsTheFirstErrorSinceReset : Prop :=
  ∀ (P : Params) (w : Word) (p : PortsIn) (s : State), s.err = errorOfTrace s.trace →
    (transact P w s).record.err = errorOfTrace (transact P w s).record.trace ∧
    (p.rstN = false → (clockEdge P p s).err = errorOfTrace (clockEdge P p s).trace) ∧
    (decode w = .cmd .status → (transact P w s).rsp.data.extractLsb' 8 4 = errorOfTrace s.trace)

/-- R66: every accepted word gets exactly one response, whose data is the packet for a successful GETPX, the status word for
STATUS, and 0 otherwise. -/
def Obligations.EveryCommandGetsOneResponse : Prop :=
  ∀ (P : Params) (w : Word) (s : State),
    (transact P w s).record.trace = s.trace ++ [.response (transact P w s).rsp (transact P w s).evs] ∧
    (transact P w s).rsp.data =
      match decode w, (transact P w s).rsp.status with
      | .cmd (.getpx idx), .ok => bufRead s idx
      | .cmd .status, .ok => statusWord s
      | _, _ => 0

/-- R33: an event is emitted exactly when its level changes: the events of a command, followed in order from the levels before
it, are all changes and end at the levels after it. -/
def Obligations.EventsAreTheLevelChanges : Prop :=
  ∀ (i : Instr) (s : State), ∃ t r evs, exec i s = .next t ∧ t.trace = s.trace ++ [.response r evs] ∧
    followEvents evs s.levels = some t.levels

/-! ## The cycle-level machine -/

/-- R8: the cycle-level machine produces the same responses and events in the same order, and the same state, as the transaction
model: for every run of clock edges without reset, from every state, completing the command under way gives what the
transaction model gives on the words the run accepted. -/
def Obligations.ClockEdgesRefineTransactions : Prop :=
  ∀ (P : Params) (ps : List PortsIn) (s : State), (∀ p ∈ ps, p.rstN = true) →
    complete (runEdges P ps s) = runWords P (acceptedWords P ps s) (complete s)

/-- R127: the reset edge, from every state. That every such edge adds one reset item, also a later edge of a reset that is held, is
the model's choice (log entry 10). What the item says was abandoned: nothing in an idle block; where a response waited to be taken,
its command's events (log entry 11); and no byte was cut short in either (a busy block: `ResetAbandonsTheCommand`). Unspecified BUF
contents are free values (log entry 3). -/
def Obligations.ResetEdgeGivesTheResetState : Prop :=
  ∀ (P : Params) (p : PortsIn) (s : State), p.rstN = false →
    (∃ t abandoned cut, clockEdge P p s = t ∧
      t = { State.reset with
        buf := t.buf, freeIx := t.freeIx, host := s.host
        trace := s.trace ++ [.reset abandoned cut
          ((if s.latchOe = true then [.latchDrive false] else []) ++ (if s.latchQ = true then [.latch false] else []) ++
            (if s.spiEn = true then [.spiEnable false] else []))] } ∧
      (s.seq = .idle → abandoned = [] ∧ cut = false) ∧
      (∀ r evs, s.seq = .responding r evs → abandoned = evs ∧ cut = false) ∧
      (∀ i, bufRead t i = Config.unspecifiedPacket t.freeIx i) ∧ t.freeIx ≠ s.freeIx) ∧
    (portsOut false s).cmdReady = false ∧ (portsOut false s).rsp = none ∧ (portsOut false s).tx = none

/-- R128: a reset during a command abandons it: no response, the events so far stay, and the byte in transfer either completes, its
event added, or is cut short (log entry 9); it does complete if the transport says so at that edge. No latch pulse follows. -/
def Obligations.ResetAbandonsTheCommand : Prop :=
  ∀ (P : Params) (p : PortsIn) (s : State) (w : Work) (evs : List Event), p.rstN = false → s.seq = .busy w evs →
    ∃ abandoned cut after, (clockEdge P p s).trace = s.trace ++ [.reset abandoned cut after] ∧
      (txPresented s = none → abandoned = evs ∧ cut = false) ∧
      (∀ b, txPresented s = some b →
        (abandoned = evs ++ [.byte b] ∧ cut = false) ∨ (abandoned = evs ∧ cut = true ∧ p.txDone = false)) ∧
      (∀ e ∈ after, e ≠ .latch true)

/-- R30(b), R103: the block is ready exactly when it is idle, and a block that is not idle pays no regard to the command port. -/
def Obligations.BusyBlockAcceptsNothing : Prop :=
  ∀ (P : Params) (p : PortsIn) (s : State) (v : Bool) (w : Word),
    ((portsOut true s).cmdReady = true ↔ s.seq = .idle) ∧
    (s.seq ≠ .idle → clockEdge P { p with cmdValid := v, cmdWord := w } s = clockEdge P p s)

/-- R30(c): a response is held, status and data stable, until the edge at which the host takes it. That it enters the observation at
that edge, and not where it is first presented, is the model's reading (log entry 11). -/
def Obligations.ResponseIsHeldUntilTaken : Prop :=
  ∀ (P : Params) (p : PortsIn) (s : State) (r : Response) (evs : List Event),
    p.rstN = true → s.seq = .responding r evs →
    (portsOut true s).rsp = some r ∧
    (p.rspReady = false → clockEdge P p s = s) ∧
    (p.rspReady = true → clockEdge P p s = { s with seq := .idle, trace := s.trace ++ [.response r evs] } ∧
      (portsOut true (clockEdge P p s)).rsp = none)

/-- R32: after the edge that completes the last byte of a frame, the latch level over the following cycles: low for
`LATCH_SETUP_CYCLES`, high for `LATCH_HIGH_CYCLES`, low again, and the response in the cycle after that and not before. -/
def Obligations.LatchPulseHasItsTiming : Prop :=
  ∀ (P : Params) (p : PortsIn) (ps : List PortsIn) (s : State) (evs : List Event),
    1 ≤ P.latchHigh → s.seq = .busy (.sending 0 3) evs → s.spiEn = true → s.latchQ = false →
    p.rstN = true → p.txDone = true → (∀ q ∈ ps, q.rstN = true) →
    let t := runEdges P ps (clockEdge P p s)
    (ps.length < P.latchSetup → t.latchQ = false ∧ rspPresented t = none) ∧
    (P.latchSetup ≤ ps.length → ps.length < P.latchSetup + P.latchHigh → t.latchQ = true ∧ rspPresented t = none) ∧
    (ps.length = P.latchSetup + P.latchHigh → t.latchQ = false ∧ rspPresented t = none) ∧
    (ps.length = P.latchSetup + P.latchHigh + 1 → t.latchQ = false ∧ rspPresented t = some ⟨.ok, 0⟩)

/-- R31(b), (d), R105(b), (c): what the block presents to the transport, and what a completed byte emits. After the last byte no byte
is presented, and the latch follows by R32: where there is a setup time it begins, and where there is none the latch rises at this
edge. -/
def Obligations.BytesGoOutOneByOne : Prop :=
  ∀ (P : Params) (p : PortsIn) (s : State) (k : Nat) (j : Fin 4) (evs : List Event),
    s.seq = .busy (.sending k j) evs → s.spiEn = true → p.rstN = true →
    txPresented s = some ((bufRead s k).extractLsb' (24 - 8 * j.val) 8) ∧
    (p.txDone = false → clockEdge P p s = s) ∧
    (p.txDone = true → j.val < 3 →
      clockEdge P p s = { s with
        seq := .busy (.sending k (j + 1)) (evs ++ [.byte ((bufRead s k).extractLsb' (24 - 8 * j.val) 8)]) }) ∧
    (p.txDone = true → j.val = 3 → 0 < k →
      clockEdge P p s = { s with
        seq := .busy (.sending (k - 1) 0) (evs ++ [.byte ((bufRead s k).extractLsb' (24 - 8 * j.val) 8)]) }) ∧
    (p.txDone = true → j.val = 3 → k = 0 →
      txPresented (clockEdge P p s) = none ∧
      (1 ≤ P.latchSetup → clockEdge P p s = { s with
        seq := .busy (.latchSetup P.latchSetup) (evs ++ [.byte ((bufRead s 0).extractLsb' 0 8)]) }) ∧
      (P.latchSetup = 0 → s.latchQ = false → clockEdge P p s = { s with
        latchQ := true
        seq := .busy (.latchHigh P.latchHigh) (evs ++ [.byte ((bufRead s 0).extractLsb' 0 8), .latch true]) }))

/-- R31(d), R24: a byte is presented only while SPI_EN = 1, and in a state of the invariant only in READY with the latch pin
driven low. -/
def Obligations.BytesOnlyWhileEnabled : Prop :=
  ∀ (P : Params) (s : State) (b : Byte), txPresented s = some b →
    s.spiEn = true ∧ (Inv P s → s.life = .ready ∧ s.latchOe = true ∧ s.latchQ = false)

/-- R139: under transport fairness (every byte presented is eventually completed) a command under way ends: along every endless
stream of edges without reset its response is presented at some time. Where every byte is completed at the first edge it is
presented at, that is after exactly `workLeft` edges and not before (the count is the reference timing's, log entry 8). Without
fairness it hangs: while the transport does not complete the byte presented, nothing changes. -/
def Obligations.CommandsEndUnderFairness : Prop :=
  ∀ (P : Params) (s : State) (w : Work) (evs : List Event), P.Valid → Inv P s → s.seq = .busy w evs →
    (∀ p : Nat → PortsIn, (∀ n, (p n).rstN = true) → transportFair P p s →
      ∃ n evs', (stateAt P p s n).seq = .responding ⟨.ok, 0⟩ evs') ∧
    (∀ ps : List PortsIn, (∀ p ∈ ps, p.rstN = true ∧ p.txDone = true) →
      (ps.length < workLeft P s w → ∃ w' evs', (runEdges P ps s).seq = .busy w' evs') ∧
      (ps.length = workLeft P s w → ∃ evs', (runEdges P ps s).seq = .responding ⟨.ok, 0⟩ evs')) ∧
    (∀ (ps : List PortsIn) (b : Byte), txPresented s = some b → (∀ p ∈ ps, p.rstN = true ∧ p.txDone = false) →
      runEdges P ps s = s)

/-- R138, R139: however long the transport takes, the response of a frame is presented no earlier than after
`4 * NLEN + LATCH_SETUP_CYCLES + LATCH_HIGH_CYCLES` edges. -/
def Obligations.FramesTakeAtLeastTheirCycles : Prop :=
  ∀ (P : Params) (ps : List PortsIn) (s : State) (k : Nat) (evs : List Event),
    P.Valid → Inv P s → s.seq = .busy (.sending k 0) evs → k + 1 = s.nlen.toNat → (∀ p ∈ ps, p.rstN = true) →
    ps.length ≤ 4 * s.nlen.toNat + P.latchSetup + P.latchHigh → rspPresented (runEdges P ps s) = none

/-! ## The chain and the assembler -/

/-- R44: in a chain of exactly NLEN modules, whatever it held and displayed before, module j displays `BUF[j]` after a
successful frame command. R135, U10: in a chain of another length what each module displays then is a free value. The chain is the
model's observer (log entry 15). -/
def Obligations.ChainDisplaysTheBuffer : Prop :=
  ∀ (i : Instr) (s : State) (c : Chain),
    (i = .showFrame ∨ i = .alloff ∨ ∃ r g b gc, i = .allon r g b gc) →
    s.life = .ready → s.latchQ = false →
    ∃ t o, exec i s = .next t ∧ t.trace = s.trace ++ [o] ∧
      (c.regs.length = s.nlen.toNat → (c.observe s.nlen.toNat o).display = packetsFrom t 0 t.nlen.toNat) ∧
      (c.regs.length ≠ s.nlen.toNat → 1 ≤ s.nlen.toNat → ∃ k, c.freeIx ≤ k ∧
        (c.observe s.nlen.toNat o).display = (List.range c.regs.length).map (Config.unknownRegister k))

/-- R136, R128(d): what a chain displays changes only at a latch pulse. Events without the end of a pulse leave it, those of a reset
item with them; SETPX, UNSETPX and GETPX leave the whole chain; a command cut off by reset before its pulse leaves it; and a reset
inside a pulse either latches what was shifted in or leaves it, a free choice. The chain is the model's observer (log entry 15). -/
def Obligations.DisplayChangesOnlyAtALatchPulse : Prop :=
  (∀ (n : Nat) (c : Chain) (evs : List Event), (∀ e ∈ evs, e ≠ .latch false) → (c.events n evs).display = c.display) ∧
  (∀ (n : Nat) (c : Chain) (abandoned evs : List Event) (cut : Bool), (∀ e ∈ abandoned ++ evs, e ≠ .latch false) →
    (c.observe n (.reset abandoned cut evs)).display = c.display) ∧
  (∀ (n i : Nat) (c : Chain) (cmd : Instr) (s : State),
    (cmd = .unsetpx i ∨ cmd = .getpx i ∨ ∃ r g b gc, cmd = .setpx i r g b gc) →
      ∃ t o, exec cmd s = .next t ∧ t.trace = s.trace ++ [o] ∧ c.observe n o = c) ∧
  (∀ (P : Params) (p : PortsIn) (n : Nat) (c : Chain) (s : State) (w : Work) (evs : List Event),
    p.rstN = false → s.seq = .busy w evs → s.latchQ = false → (∀ e ∈ evs, e ≠ .latch false) →
      ∃ o, (clockEdge P p s).trace = s.trace ++ [o] ∧ (c.observe n o).display = c.display) ∧
  (∀ (P : Params) (p : PortsIn) (n : Nat) (c : Chain) (s : State) (t : Nat) (evs : List Event),
    p.rstN = false → s.seq = .busy (.latchHigh t) evs → s.latchQ = true →
      ∃ o, (clockEdge P p s).trace = s.trace ++ [o] ∧
        (c.observe n o).display =
          if Config.cutPulseLatches (c.events n evs).freeIx = true then (c.events n evs).regs else (c.events n evs).display)

/-- R64: every well-formed command, written in decimal or hexadecimal by its mnemonic, its suffix and its operands in the order of the
syntax table, is read back as that command and assembles to its word; and the assembler refuses an operand outside its range, so
every line it takes is a word that decodes to the command read. -/
def Obligations.AssembledLinesDecodeBack : Prop :=
  (∀ (hex : Bool) (i : Instr), i.wellFormed = true →
    parseLine (printLine hex i) = some i ∧ assembleLine (printLine hex i) = some (encode i)) ∧
  (∀ (line : List Char) (w : Word), assembleLine line = some w →
    ∃ i, parseLine line = some i ∧ i.wellFormed = true ∧ decode w = .cmd i)
end

