-- ==== Sys2Proof/Laws/Assembler.lean ====
section
/-! SUPPORT. The assembler reads back what is written: numerals, channel operands, and the texts between commas (R64). -/

namespace Sys2Proof.Machine

/-- A text with no space and no comma in it, and not empty: one operand, or a mnemonic. -/
structure Solid (x : List Char) : Prop where
  ne_nil : x ≠ []
  no_space : ∀ c ∈ x, c ≠ ' '
  no_comma : ∀ c ∈ x, c ≠ ','

/-! ## Numerals -/

theorem digitValue_digitChar {d : Nat} (h : d < 16) : digitValue (Nat.digitChar d) = some d := by
  have key : ∀ d : Fin 16, digitValue (Nat.digitChar d.val) = some d.val := by decide
  exact key ⟨d, h⟩

/-- A digit is no space, no comma, no minus sign and not the `x` of a hexadecimal prefix. -/
theorem digitChar_ne {d : Nat} (h : d < 16) : Nat.digitChar d ≠ ' ' ∧ Nat.digitChar d ≠ ',' ∧ Nat.digitChar d ≠ '-' ∧
    Nat.digitChar d ≠ 'x' := by
  have key : ∀ d : Fin 16, Nat.digitChar d.val ≠ ' ' ∧ Nat.digitChar d.val ≠ ',' ∧ Nat.digitChar d.val ≠ '-' ∧
    Nat.digitChar d.val ≠ 'x' := by decide
  exact key ⟨d, h⟩

theorem digitsOf_digits {base : Nat} (h1 : 1 ≤ base) (h16 : base ≤ 16) (fuel : Nat) : ∀ n : Nat, ∀ c ∈ digitsOf base fuel n,
    ∃ d, d < 16 ∧ c = Nat.digitChar d := by
  induction fuel with
  | zero => intro n c h; cases h
  | succ fuel ih =>
    intro n c h
    unfold digitsOf at h
    split at h
    · simp only [List.mem_singleton] at h
      exact ⟨n, by omega, h⟩
    · simp only [List.mem_append, List.mem_singleton] at h
      rcases h with h | h
      · exact ih _ _ h
      · exact ⟨n % base, Nat.lt_of_lt_of_le (Nat.mod_lt _ h1) h16, h⟩

theorem digitsOf_ne_nil (base fuel n : Nat) : digitsOf base (fuel + 1) n ≠ [] := by
  unfold digitsOf; split <;> simp

/-- The digits of a number are read back as it. -/
theorem digitsValue_digitsOf {base : Nat} (h2 : 2 ≤ base) (h16 : base ≤ 16) (fuel : Nat) : ∀ (n : Nat) (cs : List Char),
    n < fuel → digitsValue base (digitsOf base fuel n ++ cs) 0 = digitsValue base cs n := by
  induction fuel with
  | zero => intro n cs h; omega
  | succ fuel ih =>
    intro n cs h
    unfold digitsOf
    split
    · rename_i hn
      simp only [List.singleton_append, digitsValue, digitValue_digitChar (show n < 16 by omega), if_pos hn]
      rw [Nat.zero_mul, Nat.zero_add]
    · have hm : n % base < base := Nat.mod_lt _ (by omega)
      have hd : n / base < n := Nat.div_lt_self (by omega) h2
      rw [List.append_assoc, ih _ _ (by omega)]
      simp only [List.singleton_append, digitsValue, digitValue_digitChar (show n % base < 16 by omega), if_pos hm]
      rw [Nat.div_add_mod']

theorem numeral_decimal {cs : List Char} (h0 : cs ≠ []) (hx : ∀ c ∈ cs, c ≠ 'x') : numeral cs = digitsValue 10 cs 0 := by
  unfold numeral
  split
  · exact absurd rfl h0
  · exact absurd rfl (hx 'x' (by simp))
  · exact absurd rfl (hx 'x' (by simp))
  · rfl

theorem numeral_hex {cs : List Char} (h0 : cs ≠ []) : numeral ('0' :: 'x' :: cs) = digitsValue 16 cs 0 := by
  cases cs with
  | nil => exact absurd rfl h0
  | cons c cs => rfl

/-- A numeral is read back as its number. -/
theorem numeral_numeralText (hex : Bool) (n : Nat) : numeral (numeralText hex n) = some n := by
  cases hex with
  | true =>
    have h := digitsValue_digitsOf (base := 16) (by omega) (by omega) (n + 1) n [] (by omega)
    rw [List.append_nil] at h
    exact (numeral_hex (digitsOf_ne_nil 16 n n)).trans h
  | false =>
    have h := digitsValue_digitsOf (base := 10) (by omega) (by omega) (n + 1) n [] (by omega)
    rw [List.append_nil] at h
    refine (numeral_decimal (digitsOf_ne_nil 10 n n) fun c hc => ?_).trans h
    obtain ⟨d, hd, rfl⟩ := digitsOf_digits (by omega) (by omega) _ _ c hc
    exact (digitChar_ne hd).2.2.2

theorem numeralText_chars (hex : Bool) (n : Nat) : ∀ c ∈ numeralText hex n, c ≠ ' ' ∧ c ≠ ',' ∧ c ≠ '-' := by
  have key : ∀ base, 1 ≤ base → base ≤ 16 → ∀ c ∈ digitsOf base (n + 1) n, c ≠ ' ' ∧ c ≠ ',' ∧ c ≠ '-' := by
    intro base h1 h16 c hc
    obtain ⟨d, hd, rfl⟩ := digitsOf_digits h1 h16 _ _ c hc
    exact ⟨(digitChar_ne hd).1, (digitChar_ne hd).2.1, (digitChar_ne hd).2.2.1⟩
  intro c hc
  cases hex with
  | true =>
    simp only [numeralText, List.mem_cons] at hc
    rcases hc with rfl | rfl | hc
    · decide
    · decide
    · exact key 16 (by omega) (by omega) c hc
  | false => exact key 10 (by omega) (by omega) c hc

theorem numeralText_solid (hex : Bool) (n : Nat) : Solid (numeralText hex n) where
  ne_nil := by
    cases hex
    · exact digitsOf_ne_nil 10 n n
    · exact List.cons_ne_nil _ _
  no_space c hc := (numeralText_chars hex n c hc).1
  no_comma c hc := (numeralText_chars hex n c hc).2.1

theorem signedNumeral_of_no_minus {cs : List Char} (h : ∀ c ∈ cs, c ≠ '-') :
    signedNumeral cs = (numeral cs).map fun n => (n : Int) := by
  unfold signedNumeral
  split
  · exact absurd rfl (h '-' (by simp))
  · rfl

/-- A channel operand is read back as its number. -/
theorem signedNumeral_channelText (hex : Bool) (x : Int) : signedNumeral (channelText hex x) = some x := by
  cases x with
  | ofNat n =>
    rw [channelText, signedNumeral_of_no_minus fun c hc => (numeralText_chars hex n c hc).2.2, numeral_numeralText]
    rfl
  | negSucc n =>
    rw [channelText, signedNumeral, numeral_numeralText]
    rfl

theorem channelText_solid (hex : Bool) (x : Int) : Solid (channelText hex x) := by
  cases x with
  | ofNat n => exact numeralText_solid hex n
  | negSucc n =>
    have h := numeralText_solid hex (n + 1)
    refine ⟨List.cons_ne_nil _ _, fun c hc => ?_, fun c hc => ?_⟩ <;> simp only [channelText, List.mem_cons] at hc <;>
      rcases hc with rfl | hc
    · decide
    · exact h.no_space c hc
    · decide
    · exact h.no_comma c hc

/-! ## Spaces and commas -/

theorem trim_space (x : List Char) : trim (' ' :: x) = trim x := rfl

theorem dropWhile_of_head {l : List Char} (h : ∀ c ∈ l.head?, c ≠ ' ') : l.dropWhile (· == ' ') = l := by
  cases l with
  | nil => rfl
  | cons c l => rw [List.dropWhile_cons, if_neg]; simpa using h c rfl

/-- A text that neither begins nor ends with a space is left as it is. -/
theorem trim_eq {l : List Char} (h1 : ∀ c ∈ l.head?, c ≠ ' ') (h2 : ∀ c ∈ l.getLast?, c ≠ ' ') : trim l = l := by
  unfold trim
  rw [dropWhile_of_head h1, dropWhile_of_head (by rwa [List.head?_reverse]), List.reverse_reverse]

theorem Solid.trim {x : List Char} (h : Solid x) : trim x = x :=
  trim_eq (fun c hc => h.no_space c (List.mem_of_mem_head? hc)) (fun c hc => h.no_space c (List.mem_of_mem_getLast? hc))

theorem splitCommas_last {x : List Char} (h : ∀ c ∈ x, c ≠ ',') : splitCommas x = [x] := by
  induction x with
  | nil => rfl
  | cons c x ih =>
    rw [splitCommas, if_neg (h c (by simp)), ih fun d hd => h d (by simp [hd])]

theorem splitCommas_comma {x : List Char} (h : ∀ c ∈ x, c ≠ ',') (rest : List Char) :
    splitCommas (x ++ ',' :: rest) = x :: splitCommas rest := by
  induction x with
  | nil => rfl
  | cons c x ih =>
    rw [List.cons_append, splitCommas, if_neg (h c (by simp)), ih fun d hd => h d (by simp [hd])]

theorem splitCommas_join : ∀ (x : List Char) (xs : List (List Char)), (∀ y ∈ x :: xs, Solid y) →
    splitCommas (joinOperands (x :: xs)) = (x :: xs).map (' ' :: ·) := by
  have comma : ∀ x : List Char, Solid x → ∀ c ∈ ' ' :: x, c ≠ ',' := by
    intro x hx c hc
    rcases List.mem_cons.1 hc with rfl | hc
    · decide
    · exact hx.no_comma c hc
  intro x xs
  induction xs generalizing x with
  | nil => intro h; exact splitCommas_last (comma x (h x (by simp)))
  | cons y xs ih =>
    intro h
    rw [joinOperands, splitCommas_comma (comma x (h x (by simp))), ih y fun z hz => h z (by simp [hz])]
    rfl

/-- Operands end with a character that is no space. -/
theorem joinOperands_last : ∀ (x : List Char) (xs : List (List Char)), (∀ y ∈ x :: xs, Solid y) →
    ∃ c, (joinOperands (x :: xs)).getLast? = some c ∧ c ≠ ' ' := by
  intro x xs
  induction xs generalizing x with
  | nil =>
    intro h
    have hx := h x (by simp)
    have hc := List.getLast?_eq_some_getLast hx.ne_nil
    exact ⟨_, by rw [joinOperands, List.getLast?_cons, hc]; rfl, hx.no_space _ (List.mem_of_mem_getLast? hc)⟩
  | cons y xs ih =>
    intro h
    obtain ⟨c, hc, hs⟩ := ih y fun z hz => h z (by simp [hz])
    exact ⟨c, by rw [joinOperands, List.getLast?_append, List.getLast?_cons, hc]; rfl, hs⟩

/-- The operands a line was written with are read back from it. -/
theorem operandTexts_join (ops : List (List Char)) (h : ∀ y ∈ ops, Solid y) : operandTexts (joinOperands ops) = ops := by
  cases ops with
  | nil => rfl
  | cons x xs =>
    have hne : trim (joinOperands (x :: xs)) ≠ [] := by
      have hx := h x (by simp)
      obtain ⟨c, hc, hs⟩ := joinOperands_last x xs h
      have hl : ∀ l : List Char, l ≠ [] → (∀ c ∈ l.head?, c ≠ ' ') → l.getLast? = some c → trim l ≠ [] := by
        intro l hl h1 h2
        rw [trim_eq h1 (by rw [h2]; rintro d ⟨⟩; exact hs)]
        exact hl
      have hhead : ∀ d ∈ x.head?, d ≠ ' ' := fun d hd => hx.no_space d (List.mem_of_mem_head? hd)
      obtain ⟨d, x', rfl⟩ := List.exists_cons_of_ne_nil hx.ne_nil
      cases xs with
      | nil => exact hl (d :: x') hx.ne_nil hhead (by simpa [joinOperands, List.getLast?_cons] using hc)
      | cons y xs =>
        refine hl ((d :: x') ++ ',' :: joinOperands (y :: xs)) (by simp) (by simpa using hhead) ?_
        simpa [joinOperands, List.getLast?_cons, List.getLast?_append] using hc
    unfold operandTexts
    rw [if_neg hne, splitCommas_join x xs h, List.map_map]
    refine (List.map_congr_left fun y hy => ?_).trans (List.map_id _)
    exact (trim_space y).trans (h y hy).trim

/-- A mnemonic with its operands is read back in these two parts. -/
theorem parseLine_written {name : List Char} {ops : List (List Char)} {i : Instr} (hn : Solid name) (h : ∀ y ∈ ops, Solid y)
    (hc : parseCommand name ops = some i) (hw : i.wellFormed = true) : parseLine (name ++ joinOperands ops) = some i := by
  have hns : ∀ c ∈ name, (c != ' ') = true := fun c hc => by simpa using hn.no_space c hc
  have ht : trim (name ++ joinOperands ops) = name ++ joinOperands ops := by
    refine trim_eq (fun c hc => ?_) (fun c hc => ?_)
    · obtain ⟨d, name', rfl⟩ := List.exists_cons_of_ne_nil hn.ne_nil
      exact hn.no_space c (by simp only [List.cons_append, List.head?_cons, Option.mem_def, Option.some.injEq] at hc; simp [hc])
    · cases ops with
      | nil => exact hn.no_space c (List.mem_of_mem_getLast? (by simpa [joinOperands] using hc))
      | cons x xs =>
        obtain ⟨d, hd, hs⟩ := joinOperands_last x xs h
        rw [List.getLast?_append, hd] at hc
        cases hc
        exact hs
  have hhead : (joinOperands ops).takeWhile (· != ' ') = [] ∧ (joinOperands ops).dropWhile (· != ' ') = joinOperands ops := by
    match ops with
    | [] => exact ⟨rfl, rfl⟩
    | [x] => exact ⟨rfl, rfl⟩
    | x :: y :: xs => exact ⟨rfl, rfl⟩
  unfold parseLine
  dsimp only
  rw [ht, List.takeWhile_append_of_pos hns, List.dropWhile_append_of_pos hns, hhead.1, hhead.2, List.append_nil,
    operandTexts_join ops h, hc]
  exact if_pos hw

theorem mnemonicText_solid (i : Instr) : Solid (mnemonicText i) := by
  have h : mnemonicText i ≠ [] ∧ ∀ c ∈ mnemonicText i, c ≠ ' ' ∧ c ≠ ',' := by
    cases i with
    | setpx i r g b gc => cases gc <;> simp [mnemonicText, withSuffix]
    | allon r g b gc => cases gc <;> simp [mnemonicText, withSuffix]
    | _ => simp [mnemonicText]
  exact ⟨h.1, fun c hc => (h.2 c hc).1, fun c hc => (h.2 c hc).2⟩

theorem operandsOf_solid (hex : Bool) (i : Instr) : ∀ y ∈ operandsOf hex i, Solid y := by
  cases i <;> simp [operandsOf, numeralText_solid, channelText_solid]

end Sys2Proof.Machine
end

