-- ==== Sys2Proof/Laws/State.lean ====
section
/-! SUPPORT. The field of every named update of the state, and what the runs and outcomes of commands hold; true by `rfl`. -/

namespace Sys2Proof.Machine

/-! `bufWrite` -/

@[simp] theorem bufWrite_life (s : State) (i : Nat) (v : Packet) : (bufWrite s i v).life = s.life := rfl
@[simp] theorem bufWrite_nlen (s : State) (i : Nat) (v : Packet) : (bufWrite s i v).nlen = s.nlen := rfl
@[simp] theorem bufWrite_latchOe (s : State) (i : Nat) (v : Packet) : (bufWrite s i v).latchOe = s.latchOe := rfl
@[simp] theorem bufWrite_latchQ (s : State) (i : Nat) (v : Packet) : (bufWrite s i v).latchQ = s.latchQ := rfl
@[simp] theorem bufWrite_spiEn (s : State) (i : Nat) (v : Packet) : (bufWrite s i v).spiEn = s.spiEn := rfl
@[simp] theorem bufWrite_err (s : State) (i : Nat) (v : Packet) : (bufWrite s i v).err = s.err := rfl
@[simp] theorem bufWrite_buf (s : State) (i : Nat) (v : Packet) : (bufWrite s i v).buf = memWrite s.buf i v := rfl
@[simp] theorem bufWrite_seq (s : State) (i : Nat) (v : Packet) : (bufWrite s i v).seq = s.seq := rfl
@[simp] theorem bufWrite_freeIx (s : State) (i : Nat) (v : Packet) : (bufWrite s i v).freeIx = s.freeIx := rfl
@[simp] theorem bufWrite_host (s : State) (i : Nat) (v : Packet) : (bufWrite s i v).host = s.host := rfl
@[simp] theorem bufWrite_trace (s : State) (i : Nat) (v : Packet) : (bufWrite s i v).trace = s.trace := rfl

/-! `bufFill` -/

@[simp] theorem bufFill_life (s : State) (n : Nat) (v : Packet) : (bufFill s n v).life = s.life := rfl
@[simp] theorem bufFill_nlen (s : State) (n : Nat) (v : Packet) : (bufFill s n v).nlen = s.nlen := rfl
@[simp] theorem bufFill_latchOe (s : State) (n : Nat) (v : Packet) : (bufFill s n v).latchOe = s.latchOe := rfl
@[simp] theorem bufFill_latchQ (s : State) (n : Nat) (v : Packet) : (bufFill s n v).latchQ = s.latchQ := rfl
@[simp] theorem bufFill_spiEn (s : State) (n : Nat) (v : Packet) : (bufFill s n v).spiEn = s.spiEn := rfl
@[simp] theorem bufFill_err (s : State) (n : Nat) (v : Packet) : (bufFill s n v).err = s.err := rfl
@[simp] theorem bufFill_buf (s : State) (n : Nat) (v : Packet) : (bufFill s n v).buf = memFill 0 n v s.buf := rfl
@[simp] theorem bufFill_seq (s : State) (n : Nat) (v : Packet) : (bufFill s n v).seq = s.seq := rfl
@[simp] theorem bufFill_freeIx (s : State) (n : Nat) (v : Packet) : (bufFill s n v).freeIx = s.freeIx := rfl
@[simp] theorem bufFill_host (s : State) (n : Nat) (v : Packet) : (bufFill s n v).host = s.host := rfl
@[simp] theorem bufFill_trace (s : State) (n : Nat) (v : Packet) : (bufFill s n v).trace = s.trace := rfl

/-! `bufForget` -/

@[simp] theorem bufForget_life (s : State) : (bufForget s).life = s.life := rfl
@[simp] theorem bufForget_nlen (s : State) : (bufForget s).nlen = s.nlen := rfl
@[simp] theorem bufForget_latchOe (s : State) : (bufForget s).latchOe = s.latchOe := rfl
@[simp] theorem bufForget_latchQ (s : State) : (bufForget s).latchQ = s.latchQ := rfl
@[simp] theorem bufForget_spiEn (s : State) : (bufForget s).spiEn = s.spiEn := rfl
@[simp] theorem bufForget_err (s : State) : (bufForget s).err = s.err := rfl
@[simp] theorem bufForget_buf (s : State) : (bufForget s).buf = [] := rfl
@[simp] theorem bufForget_seq (s : State) : (bufForget s).seq = s.seq := rfl
@[simp] theorem bufForget_freeIx (s : State) : (bufForget s).freeIx = s.freeIx + 1 := rfl
@[simp] theorem bufForget_host (s : State) : (bufForget s).host = s.host := rfl
@[simp] theorem bufForget_trace (s : State) : (bufForget s).trace = s.trace := rfl

/-! `Done.record` -/

@[simp] theorem record_life (d : Done) : (d.record).life = d.state.life := rfl
@[simp] theorem record_nlen (d : Done) : (d.record).nlen = d.state.nlen := rfl
@[simp] theorem record_latchOe (d : Done) : (d.record).latchOe = d.state.latchOe := rfl
@[simp] theorem record_latchQ (d : Done) : (d.record).latchQ = d.state.latchQ := rfl
@[simp] theorem record_spiEn (d : Done) : (d.record).spiEn = d.state.spiEn := rfl
@[simp] theorem record_err (d : Done) : (d.record).err = d.state.err := rfl
@[simp] theorem record_buf (d : Done) : (d.record).buf = d.state.buf := rfl
@[simp] theorem record_seq (d : Done) : (d.record).seq = d.state.seq := rfl
@[simp] theorem record_freeIx (d : Done) : (d.record).freeIx = d.state.freeIx := rfl
@[simp] theorem record_host (d : Done) : (d.record).host = d.state.host := rfl
@[simp] theorem record_trace (d : Done) : (d.record).trace = d.state.trace ++ [.response d.rsp d.evs] := rfl

/-! `raise` -/

@[simp] theorem raise_state_life (e : Status) (s : State) : ((raise e s).state).life = s.life := rfl
@[simp] theorem raise_state_nlen (e : Status) (s : State) : ((raise e s).state).nlen = s.nlen := rfl
@[simp] theorem raise_state_latchOe (e : Status) (s : State) : ((raise e s).state).latchOe = s.latchOe := rfl
@[simp] theorem raise_state_latchQ (e : Status) (s : State) : ((raise e s).state).latchQ = s.latchQ := rfl
@[simp] theorem raise_state_spiEn (e : Status) (s : State) : ((raise e s).state).spiEn = s.spiEn := rfl
@[simp] theorem raise_state_err (e : Status) (s : State) : ((raise e s).state).err = stickyErr s.err e := rfl
@[simp] theorem raise_state_buf (e : Status) (s : State) : ((raise e s).state).buf = s.buf := rfl
@[simp] theorem raise_state_seq (e : Status) (s : State) : ((raise e s).state).seq = s.seq := rfl
@[simp] theorem raise_state_freeIx (e : Status) (s : State) : ((raise e s).state).freeIx = s.freeIx := rfl
@[simp] theorem raise_state_host (e : Status) (s : State) : ((raise e s).state).host = s.host := rfl
@[simp] theorem raise_state_trace (e : Status) (s : State) : ((raise e s).state).trace = s.trace := rfl

/-! `hold` -/

@[simp] theorem hold_life (d : Done) : (hold d).life = d.state.life := rfl
@[simp] theorem hold_nlen (d : Done) : (hold d).nlen = d.state.nlen := rfl
@[simp] theorem hold_latchOe (d : Done) : (hold d).latchOe = d.state.latchOe := rfl
@[simp] theorem hold_latchQ (d : Done) : (hold d).latchQ = d.state.latchQ := rfl
@[simp] theorem hold_spiEn (d : Done) : (hold d).spiEn = d.state.spiEn := rfl
@[simp] theorem hold_err (d : Done) : (hold d).err = d.state.err := rfl
@[simp] theorem hold_buf (d : Done) : (hold d).buf = d.state.buf := rfl
@[simp] theorem hold_seq (d : Done) : (hold d).seq = .responding d.rsp d.evs := rfl
@[simp] theorem hold_freeIx (d : Done) : (hold d).freeIx = d.state.freeIx := rfl
@[simp] theorem hold_host (d : Done) : (hold d).host = d.state.host := rfl
@[simp] theorem hold_trace (d : Done) : (hold d).trace = d.state.trace := rfl

/-! `Run.continue` -/

@[simp] theorem continue_life (w : Work) (r : Run) : (r.continue w).life = r.state.life := rfl
@[simp] theorem continue_nlen (w : Work) (r : Run) : (r.continue w).nlen = r.state.nlen := rfl
@[simp] theorem continue_latchOe (w : Work) (r : Run) : (r.continue w).latchOe = r.state.latchOe := rfl
@[simp] theorem continue_latchQ (w : Work) (r : Run) : (r.continue w).latchQ = r.state.latchQ := rfl
@[simp] theorem continue_spiEn (w : Work) (r : Run) : (r.continue w).spiEn = r.state.spiEn := rfl
@[simp] theorem continue_err (w : Work) (r : Run) : (r.continue w).err = r.state.err := rfl
@[simp] theorem continue_buf (w : Work) (r : Run) : (r.continue w).buf = r.state.buf := rfl
@[simp] theorem continue_seq (w : Work) (r : Run) : (r.continue w).seq = .busy w r.evs := rfl
@[simp] theorem continue_freeIx (w : Work) (r : Run) : (r.continue w).freeIx = r.state.freeIx := rfl
@[simp] theorem continue_host (w : Work) (r : Run) : (r.continue w).host = r.state.host := rfl
@[simp] theorem continue_trace (w : Work) (r : Run) : (r.continue w).trace = r.state.trace := rfl

/-! `finishConstruct` -/

@[simp] theorem finishConstruct_life (n : Nat) (s : State) : (finishConstruct n s).life = .constructed := rfl
@[simp] theorem finishConstruct_nlen (n : Nat) (s : State) : (finishConstruct n s).nlen = BitVec.ofNat 16 n := rfl
@[simp] theorem finishConstruct_latchOe (n : Nat) (s : State) : (finishConstruct n s).latchOe = s.latchOe := rfl
@[simp] theorem finishConstruct_latchQ (n : Nat) (s : State) : (finishConstruct n s).latchQ = s.latchQ := rfl
@[simp] theorem finishConstruct_spiEn (n : Nat) (s : State) : (finishConstruct n s).spiEn = s.spiEn := rfl
@[simp] theorem finishConstruct_err (n : Nat) (s : State) : (finishConstruct n s).err = s.err := rfl
@[simp] theorem finishConstruct_buf (n : Nat) (s : State) : (finishConstruct n s).buf = s.buf := rfl
@[simp] theorem finishConstruct_seq (n : Nat) (s : State) : (finishConstruct n s).seq = s.seq := rfl
@[simp] theorem finishConstruct_freeIx (n : Nat) (s : State) : (finishConstruct n s).freeIx = s.freeIx := rfl
@[simp] theorem finishConstruct_host (n : Nat) (s : State) : (finishConstruct n s).host = s.host := rfl
@[simp] theorem finishConstruct_trace (n : Nat) (s : State) : (finishConstruct n s).trace = s.trace := rfl

/-! Runs and outcomes -/

@[simp] theorem start_state (s : State) : (start s).state = s := rfl
@[simp] theorem start_evs (s : State) : (start s).evs = [] := rfl
@[simp] theorem emit_state (r : Run) (es : List Event) : (r.emit es).state = r.state := rfl
@[simp] theorem emit_evs (r : Run) (es : List Event) : (r.emit es).evs = r.evs ++ es := rfl
@[simp] theorem succeed_state (d : BitVec 32) (r : Run) : (r.succeed d).state = r.state := rfl
@[simp] theorem succeed_rsp (d : BitVec 32) (r : Run) : (r.succeed d).rsp = ⟨.ok, d⟩ := rfl
@[simp] theorem succeed_evs (d : BitVec 32) (r : Run) : (r.succeed d).evs = r.evs := rfl
@[simp] theorem raise_rsp (e : Status) (s : State) : (raise e s).rsp = ⟨e, 0⟩ := rfl
@[simp] theorem raise_evs (e : Status) (s : State) : (raise e s).evs = [] := rfl

/-! The output levels: a write of a level sets it, and emits its event exactly when it changes (R33) -/

@[simp] theorem onChange_same (b : Bool) (e : Event) : onChange b b e = [] := by cases b <;> rfl
@[simp] theorem onChange_rise (e : Event) : onChange false true e = [e] := rfl
@[simp] theorem onChange_fall (e : Event) : onChange true false e = [e] := rfl

@[simp] theorem setLatchOe_state (d : Bool) (r : Run) : (r.setLatchOe d).state = { r.state with latchOe := d } := rfl
@[simp] theorem setLatchOe_evs (d : Bool) (r : Run) :
    (r.setLatchOe d).evs = r.evs ++ onChange r.state.latchOe d (.latchDrive d) := rfl
@[simp] theorem setLatchQ_state (d : Bool) (r : Run) : (r.setLatchQ d).state = { r.state with latchQ := d } := rfl
@[simp] theorem setLatchQ_evs (d : Bool) (r : Run) :
    (r.setLatchQ d).evs = r.evs ++ onChange r.state.latchQ d (.latch d) := rfl
@[simp] theorem setSpiEn_state (d : Bool) (r : Run) : (r.setSpiEn d).state = { r.state with spiEn := d } := rfl
@[simp] theorem setSpiEn_evs (d : Bool) (r : Run) :
    (r.setSpiEn d).evs = r.evs ++ onChange r.state.spiEn d (.spiEnable d) := rfl

/-- The events of a latch pulse from a level (R98, R33). -/
def pulseEvents (q : Bool) : List Event := onChange q true (.latch true) ++ [.latch false]

@[simp] theorem pulseEvents_low : pulseEvents false = [.latch true, .latch false] := rfl

@[simp] theorem latchPulse_state (r : Run) : r.latchPulse.state = { r.state with latchQ := false } := rfl
@[simp] theorem latchPulse_evs (r : Run) : r.latchPulse.evs = r.evs ++ pulseEvents r.state.latchQ :=
  List.append_assoc ..
@[simp] theorem frame_state (r : Run) : r.frame.state = { r.state with latchQ := false } := rfl

/-- The events of a frame (R98). -/
theorem frame_evs (r : Run) :
    r.frame.evs = r.evs ++ frameBytes r.state r.state.nlen.toNat ++ pulseEvents r.state.latchQ :=
  latchPulse_evs _

end Sys2Proof.Machine
end

