-- ==== Sys2Proof/Laws/Memory.lean ====
section
/-! SUPPORT. The pixel buffer's memory: read after write, the fill, and the canonical form. -/

namespace Sys2Proof.Machine

theorem memFind_memWrite_same (m : Memory) (i : Nat) (v : Packet) : memFind (memWrite m i v) i = some v := by
  induction m with
  | nil => simp [memWrite, memFind]
  | cons c m ih =>
    obtain ⟨a, p⟩ := c
    unfold memWrite
    split
    · simp [memFind]
    · split
      · simp [memFind]
      · rw [memFind, if_neg (by omega), ih]

theorem memFind_memWrite_other (m : Memory) {i j : Nat} (v : Packet) (h : j ≠ i) :
    memFind (memWrite m i v) j = memFind m j := by
  induction m with
  | nil => simp [memWrite, memFind, h.symm]
  | cons c m ih =>
    obtain ⟨a, p⟩ := c
    unfold memWrite
    split
    · simp [memFind, h.symm]
    · split
      · subst_vars; simp [memFind, h.symm]
      · simp only [memFind, ih]

/-- Read after write, at any index. -/
theorem memFind_memWrite (m : Memory) (i j : Nat) (v : Packet) :
    memFind (memWrite m i v) j = if j = i then some v else memFind m j := by
  split
  · subst_vars; exact memFind_memWrite_same m _ v
  · exact memFind_memWrite_other m v ‹_›

theorem memWrite_memWrite_same (m : Memory) (i : Nat) (v w : Packet) :
    memWrite (memWrite m i v) i w = memWrite m i w := by
  induction m with
  | nil => simp [memWrite]
  | cons c m ih =>
    obtain ⟨a, p⟩ := c
    simp only [memWrite]
    split
    · simp [memWrite]
    · split
      · simp [memWrite]
      · simp_all [memWrite]

/-- What a fill leaves at any index. -/
theorem memFind_memFill (count : Nat) : ∀ (k : Nat) (v : Packet) (m : Memory) (j : Nat),
    memFind (memFill k count v m) j = if k ≤ j ∧ j < k + count then some v else memFind m j := by
  induction count with
  | zero => intro k v m j; rw [memFill, if_neg (by omega)]
  | succ n ih =>
    intro k v m j
    rw [memFill, ih, memFind_memWrite]
    split
    · rw [if_pos (by omega)]
    · split
      · rw [if_pos (by omega)]
      · rw [if_neg (by omega)]

/-- A fill by one write more. -/
theorem memFill_succ_last (count : Nat) : ∀ (k : Nat) (v : Packet) (m : Memory),
    memFill k (count + 1) v m = memWrite (memFill k count v m) (k + count) v := by
  induction count with
  | zero => intro k v m; rfl
  | succ n ih =>
    intro k v m
    rw [memFill, ih, memFill, Nat.add_assoc, Nat.add_comm 1 n]

/-- The indexes listed after a write. -/
theorem mem_map_fst_memWrite (m : Memory) (i : Nat) (v : Packet) (a : Nat) :
    a ∈ (memWrite m i v).map Prod.fst → a = i ∨ a ∈ m.map Prod.fst := by
  induction m with
  | nil => simp [memWrite]
  | cons c m ih =>
    obtain ⟨b, p⟩ := c
    unfold memWrite
    split
    · simp
    · split
      · subst_vars
        simp only [List.map_cons, List.mem_cons]
        rintro (h | h)
        · exact Or.inl h
        · exact Or.inr (Or.inr h)
      · simp only [List.map_cons, List.mem_cons]
        rintro (h | h)
        · exact Or.inr (Or.inl h)
        · exact (ih h).imp id Or.inr

/-- A write keeps the canonical form. -/
theorem memWrite_wf (m : Memory) (i : Nat) (v : Packet) (h : Memory.wf m) : Memory.wf (memWrite m i v) := by
  induction m with
  | nil => simp [Memory.wf, memWrite]
  | cons c m ih =>
    obtain ⟨a, p⟩ := c
    obtain ⟨hlt, hm⟩ := List.pairwise_cons.mp h
    unfold memWrite
    split
    · refine List.pairwise_cons.mpr ⟨fun b hb => ?_, h⟩
      rcases List.mem_cons.mp hb with rfl | hb
      · assumption
      · exact Nat.lt_trans ‹_› (hlt b hb)
    · split
      · subst_vars; exact h
      · refine List.pairwise_cons.mpr ⟨fun b hb => ?_, ih hm⟩
        rcases mem_map_fst_memWrite m i v b hb with rfl | hb
        · show a < b; omega
        · exact hlt b hb

/-- A fill keeps the canonical form. -/
theorem memFill_wf (count : Nat) : ∀ (k : Nat) (v : Packet) (m : Memory), Memory.wf m → Memory.wf (memFill k count v m) := by
  induction count with
  | zero => intro k v m h; exact h
  | succ n ih => intro k v m h; exact ih _ _ _ (memWrite_wf m k v h)

/-! The same facts for `bufRead` -/

/-- What a read depends on. -/
theorem bufRead_congr {s t : State} (hb : t.buf = s.buf) (hf : t.freeIx = s.freeIx) (i : Nat) : bufRead t i = bufRead s i := by
  simp only [bufRead, hb, hf]

theorem bufRead_bufWrite (s : State) (i j : Nat) (v : Packet) :
    bufRead (bufWrite s i v) j = if j = i then v else bufRead s j := by
  simp only [bufRead, bufWrite_buf, bufWrite_freeIx, memFind_memWrite]
  split <;> rfl

theorem bufRead_bufFill (s : State) (n j : Nat) (v : Packet) :
    bufRead (bufFill s n v) j = if j < n then v else bufRead s j := by
  simp only [bufRead, bufFill_buf, bufFill_freeIx, memFind_memFill, Nat.zero_le, true_and, Nat.zero_add]
  split <;> rfl

/-- What the bytes of a frame depend on. -/
theorem frameBytes_congr {s t : State} (h : ∀ i, bufRead t i = bufRead s i) (n : Nat) : frameBytes t n = frameBytes s n := by
  induction n with
  | zero => rfl
  | succ k ih => rw [frameBytes, frameBytes, h, ih]

end Sys2Proof.Machine
end

