-- ==== Sys2Proof/Laws/Codec.lean ====
section
/-! SUPPORT. The codec: slots of a packed packet, the clamp's three cases, and the gamma table of the configuration. -/

namespace Sys2Proof

theorem runningMax_step (f : U10 → U10) (n : Nat) : (runningMax f n).toNat ≤ (runningMax f (n + 1)).toNat := by
  rw [runningMax]; split <;> omega

theorem runningMax_mono (f : U10 → U10) {m n : Nat} (h : m ≤ n) : (runningMax f m).toNat ≤ (runningMax f n).toNat := by
  induction n with
  | zero => obtain rfl : m = 0 := by omega
            exact Nat.le_refl _
  | succ n ih =>
    rcases Nat.lt_or_ge n m with hm | hm
    · obtain rfl : m = n + 1 := by omega
      exact Nat.le_refl _
    · exact Nat.le_trans (ih hm) (runningMax_step f n)

/-- The running maximum of a table that rises from 0 is the table. -/
theorem runningMax_of_mono (f : U10 → U10) (h0 : f 0 = 0) (hm : ∀ x y : U10, x.toNat ≤ y.toNat → (f x).toNat ≤ (f y).toNat) :
    ∀ n, n ≤ 1023 → runningMax f n = f (BitVec.ofNat 10 n) := by
  intro n
  induction n with
  | zero => intro _; exact h0.symm
  | succ n ih =>
    intro hn
    rw [runningMax, ih (by omega), if_pos]
    exact hm _ _ (by simp only [BitVec.toNat_ofNat]; omega)

/-- `MAX_N` is at least 1 and at most 65535 (R7). -/
theorem config_maxN : 1 ≤ Config.params.maxN ∧ Config.params.maxN ≤ 65535 := by
  have h := Config.maxNLessOne.isLt
  show 1 ≤ Config.maxNLessOne.val + 1 ∧ Config.maxNLessOne.val + 1 ≤ 65535
  omega

end Sys2Proof

namespace Sys2Proof.Machine

/-! The clamp (R67) -/

theorem clamp10_low {x : Int} (h : x ≤ 0) : clamp10 x = 0 := by
  unfold clamp10
  rcases Int.lt_or_eq_of_le h with h | rfl
  · rw [if_pos h]
  · rfl

theorem clamp10_high {x : Int} (h : 1023 ≤ x) : clamp10 x = 1023 := by
  unfold clamp10
  rw [if_neg (by omega)]
  rcases Int.lt_or_eq_of_le h with h | rfl
  · rw [if_pos h]
  · rfl

theorem clamp10_mid {x : Int} (h0 : 0 ≤ x) (h1 : x ≤ 1023) : (clamp10 x).toNat = x.toNat := by
  unfold clamp10
  rw [if_neg (by omega), if_neg (by omega), BitVec.toNat_ofNat, Nat.mod_eq_of_lt (by omega)]

/-! The packet (R73 to R75) -/

theorem packPwm_bit31 (l : PwmLayout) (r g b : U10) : (packPwm l r g b).getLsbD 31 = false := by
  cases l <;> simp only [packPwm, BitVec.getLsbD_append] <;> rfl

theorem packPwm_bit30 (l : PwmLayout) (r g b : U10) : (packPwm l r g b).getLsbD 30 = false := by
  cases l <;> simp only [packPwm, BitVec.getLsbD_append] <;> rfl

/-- The three slots of a packet made of three 10-bit values. -/
theorem slots_of_append (x y z : U10) :
    slotHigh (0#2 ++ (x ++ (y ++ z))) = x ∧ slotMid (0#2 ++ (x ++ (y ++ z))) = y ∧
      slotLow (0#2 ++ (x ++ (y ++ z))) = z := by
  refine ⟨?_, ?_, ?_⟩ <;> apply BitVec.eq_of_getLsbD_eq <;> intro i hi <;>
    simp only [slotHigh, slotMid, slotLow, BitVec.getLsbD_extractLsb', BitVec.getLsbD_append, hi, decide_true, Bool.true_and]
  · rw [if_pos (by omega), if_neg (by omega)]; congr 1; omega
  · rw [if_pos (by omega), if_pos (by omega), if_neg (by omega)]; congr 1; omega
  · rw [if_pos (by omega), if_pos (by omega), if_pos (by omega), Nat.zero_add]

/-- What the decoder finds in a packed packet (R77). -/
theorem decodePacket_packPwm (l : PwmLayout) (r g b : U10) :
    decodePacket l (packPwm l r g b) =
      if (packPwm l r g b).getLsbD 31 then .cal ((packPwm l r g b).extractLsb' 0 31)
      else .pwm r g b ((packPwm l r g b).getLsbD 30) := by
  unfold decodePacket
  split
  · rfl
  · cases l
    · obtain ⟨h1, h2, h3⟩ := slots_of_append b r g
      exact congr (congr (congr (congrArg Decoded.pwm h2) h3) h1) rfl
    · obtain ⟨h1, h2, h3⟩ := slots_of_append b g r
      exact congr (congr (congr (congrArg Decoded.pwm h3) h2) h1) rfl
    · obtain ⟨h1, h2, h3⟩ := slots_of_append r b g
      exact congr (congr (congr (congrArg Decoded.pwm h1) h3) h2) rfl
    · obtain ⟨h1, h2, h3⟩ := slots_of_append r g b
      exact congr (congr (congr (congrArg Decoded.pwm h1) h2) h3) rfl
    · obtain ⟨h1, h2, h3⟩ := slots_of_append g b r
      exact congr (congr (congr (congrArg Decoded.pwm h3) h1) h2) rfl
    · obtain ⟨h1, h2, h3⟩ := slots_of_append g r b
      exact congr (congr (congr (congrArg Decoded.pwm h2) h1) h3) rfl

theorem packPwm_zero (l : PwmLayout) : packPwm l 0 0 0 = 0 := by cases l <;> rfl

theorem packPwm_full (l : PwmLayout) : packPwm l 1023 1023 1023 = 0x3FFFFFFF := by cases l <;> rfl

/-- The encoded packet has bits 31 and 30 clear (R74). -/
theorem encodeColor_built (P : Params) (r g b : Int) (gc : Bool) : builtPacket P (encodeColor P r g b gc) :=
  ⟨packPwm_bit31 _ _ _ _, packPwm_bit30 _ _ _ _, .inr ⟨r, g, b, gc, rfl⟩⟩

theorem zero_built (P : Params) : builtPacket P 0 := ⟨rfl, rfl, .inl rfl⟩

/-- Black is the zero packet, with gamma or without (R92, R79). -/
theorem encodeColor_black {P : Params} (h : P.Valid) (gc : Bool) : encodeColor P 0 0 0 gc = 0 := by
  have hc : encChannel P 0 gc = 0 := by
    unfold encChannel lut
    rw [clamp10_low (Int.le_refl 0), h.gamma_zero]
    split <;> rfl
  rw [encodeColor, hc, packPwm_zero]

end Sys2Proof.Machine
end

