-- ==== Sys2Proof/Laws/Encoding.lean ====
section
/-! SUPPORT. The fields of a packed command word, and a word as its fields. -/

namespace Sys2Proof

theorem opField_packC80 (op : BitVec 8) (gc : Bool) (idx red grn blu : BitVec 16) :
    opField (packC80 op gc idx red grn blu) = op := by
  apply BitVec.eq_of_getLsbD_eq; intro i hi
  simp only [opField, packC80, BitVec.getLsbD_extractLsb', BitVec.getLsbD_append, hi, decide_true, Bool.true_and]
  rw [if_neg (by omega)]; congr 1; omega

theorem rsvField_packC80 (op : BitVec 8) (gc : Bool) (idx red grn blu : BitVec 16) :
    rsvField (packC80 op gc idx red grn blu) = 0 := by
  apply BitVec.eq_of_getLsbD_eq; intro i hi
  simp only [rsvField, packC80, BitVec.getLsbD_extractLsb', BitVec.getLsbD_append, hi, decide_true, Bool.true_and]
  rw [if_pos (by omega), if_neg (by omega)]; simp

theorem gcField_packC80 (op : BitVec 8) (gc : Bool) (idx red grn blu : BitVec 16) :
    gcField (packC80 op gc idx red grn blu) = gc := by
  simp only [gcField, packC80, BitVec.getLsbD_append]
  cases gc <;> rfl

theorem idxField_packC80 (op : BitVec 8) (gc : Bool) (idx red grn blu : BitVec 16) :
    idxField (packC80 op gc idx red grn blu) = idx := by
  apply BitVec.eq_of_getLsbD_eq; intro i hi
  simp only [idxField, packC80, BitVec.getLsbD_extractLsb', BitVec.getLsbD_append, hi, decide_true, Bool.true_and]
  rw [if_pos (by omega), if_pos (by omega), if_pos (by omega), if_neg (by omega)]; congr 1; omega

theorem redField_packC80 (op : BitVec 8) (gc : Bool) (idx red grn blu : BitVec 16) :
    redField (packC80 op gc idx red grn blu) = red := by
  apply BitVec.eq_of_getLsbD_eq; intro i hi
  simp only [redField, packC80, BitVec.getLsbD_extractLsb', BitVec.getLsbD_append, hi, decide_true, Bool.true_and]
  rw [if_pos (by omega), if_pos (by omega), if_pos (by omega), if_pos (by omega), if_neg (by omega)]; congr 1; omega

theorem grnField_packC80 (op : BitVec 8) (gc : Bool) (idx red grn blu : BitVec 16) :
    grnField (packC80 op gc idx red grn blu) = grn := by
  apply BitVec.eq_of_getLsbD_eq; intro i hi
  simp only [grnField, packC80, BitVec.getLsbD_extractLsb', BitVec.getLsbD_append, hi, decide_true, Bool.true_and]
  rw [if_pos (by omega), if_pos (by omega), if_pos (by omega), if_pos (by omega), if_pos (by omega), if_neg (by omega)]
  congr 1; omega

theorem bluField_packC80 (op : BitVec 8) (gc : Bool) (idx red grn blu : BitVec 16) :
    bluField (packC80 op gc idx red grn blu) = blu := by
  apply BitVec.eq_of_getLsbD_eq; intro i hi
  simp only [bluField, packC80, BitVec.getLsbD_extractLsb', BitVec.getLsbD_append, hi, decide_true, Bool.true_and]
  rw [if_pos (by omega), if_pos (by omega), if_pos (by omega), if_pos (by omega), if_pos (by omega), if_pos (by omega)]
  congr 1; omega

/-- A field of a word, put back at its place. -/
theorem field_bit (w : Word) {a n i : Nat} (h1 : a ≤ i) (h2 : i < a + n) :
    (decide (i - a < n) && w.getLsbD (a + (i - a))) = w.getLsbD i := by
  rw [decide_eq_true (by omega), Bool.true_and, Nat.add_sub_cancel' h1]

/-- A word whose reserved bits are zero is its fields packed. -/
theorem packC80_fields (w : Word) (h : rsvField w = 0) :
    packC80 (opField w) (gcField w) (idxField w) (redField w) (grnField w) (bluField w) = w := by
  have hr : ∀ j, j < 7 → w.getLsbD (65 + j) = false := by
    intro j hj
    have := congrArg (fun v => v.getLsbD j) h
    simpa [rsvField, hj] using this
  apply BitVec.eq_of_getLsbD_eq; intro i hi
  simp only [opField, gcField, idxField, redField, grnField, bluField, packC80, BitVec.getLsbD_append,
    BitVec.getLsbD_extractLsb', Nat.zero_add, BitVec.getLsbD_zero]
  by_cases h1 : i < 16
  · rw [if_pos (by omega), if_pos (by omega), if_pos (by omega), if_pos (by omega), if_pos (by omega), if_pos h1,
      decide_eq_true h1, Bool.true_and]
  by_cases h2 : i < 32
  · rw [if_pos (by omega), if_pos (by omega), if_pos (by omega), if_pos (by omega), if_pos h2, if_neg h1]
    exact field_bit w (by omega) (by omega)
  by_cases h3 : i < 48
  · rw [if_pos (by omega), if_pos (by omega), if_pos (by omega), if_pos h3, if_neg h2]
    exact field_bit w (by omega) (by omega)
  by_cases h4 : i < 64
  · rw [if_pos (by omega), if_pos (by omega), if_pos h4, if_neg h3]
    exact field_bit w (by omega) (by omega)
  by_cases h5 : i < 65
  · obtain rfl : i = 64 := by omega
    cases w.getLsbD 64 <;> rfl
  by_cases h6 : i < 72
  · rw [if_pos h6, if_neg h5]
    obtain ⟨j, rfl⟩ : ∃ j, i = 65 + j := ⟨i - 65, by omega⟩
    rw [hr j (by omega)]
  · rw [if_neg h6]
    exact field_bit w (by omega) (by omega)

/-- A bit of a word as a bit of a field of it. -/
theorem getLsbD_of_field {v w : Word} {a n : Nat} (h : v.extractLsb' a n = w.extractLsb' a n) {i : Nat} (h1 : a ≤ i)
    (h2 : i < a + n) : v.getLsbD i = w.getLsbD i := by
  have := congrArg (fun x => x.getLsbD (i - a)) h
  simpa only [BitVec.getLsbD_extractLsb', field_bit v h1 h2, field_bit w h1 h2] using this

/-- Two words with equal fields are equal. -/
theorem word_ext {v w : Word} (h0 : rsvField v = rsvField w) (h1 : opField v = opField w)
    (h2 : gcField v = gcField w) (h3 : idxField v = idxField w) (h4 : redField v = redField w)
    (h5 : grnField v = grnField w) (h6 : bluField v = bluField w) : v = w := by
  apply BitVec.eq_of_getLsbD_eq; intro i hi
  rcases Nat.lt_or_ge i 16 with h | h
  · exact getLsbD_of_field h6 (Nat.zero_le _) h
  rcases Nat.lt_or_ge i 32 with h' | h
  · exact getLsbD_of_field h5 h h'
  rcases Nat.lt_or_ge i 48 with h' | h
  · exact getLsbD_of_field h4 h h'
  rcases Nat.lt_or_ge i 64 with h' | h
  · exact getLsbD_of_field h3 h h'
  rcases Nat.lt_or_ge i 65 with h' | h
  · obtain rfl : i = 64 := by omega
    exact h2
  rcases Nat.lt_or_ge i 72 with h' | h
  · exact getLsbD_of_field h0 h h'
  · exact getLsbD_of_field h1 h (by omega)

/-! The fields of a masked word -/

theorem opField_and (v w : Word) : opField (v &&& w) = opField v &&& opField w := BitVec.extractLsb'_and ..
theorem rsvField_and (v w : Word) : rsvField (v &&& w) = rsvField v &&& rsvField w := BitVec.extractLsb'_and ..
theorem gcField_and (v w : Word) : gcField (v &&& w) = (gcField v && gcField w) := BitVec.getLsbD_and ..
theorem idxField_and (v w : Word) : idxField (v &&& w) = idxField v &&& idxField w := BitVec.extractLsb'_and ..
theorem redField_and (v w : Word) : redField (v &&& w) = redField v &&& redField w := BitVec.extractLsb'_and ..
theorem grnField_and (v w : Word) : grnField (v &&& w) = grnField v &&& grnField w := BitVec.extractLsb'_and ..
theorem bluField_and (v w : Word) : bluField (v &&& w) = bluField v &&& bluField w := BitVec.extractLsb'_and ..

theorem toNat_idxBits {n : Nat} (h : fitsIdx n = true) : (idxBits n).toNat = n := by
  simp only [fitsIdx, decide_eq_true_eq] at h
  rw [idxBits, BitVec.toNat_ofNat, Nat.mod_eq_of_lt (by omega)]

theorem toInt_chanBits {x : Int} (h : fitsChannel x = true) : (chanBits x).toInt = x := by
  simp only [fitsChannel, Bool.and_eq_true, decide_eq_true_eq] at h
  rw [chanBits, BitVec.toInt_ofInt, Int.bmod_eq_of_le (by omega) (by omega)]

theorem idxBits_toNat (b : BitVec 16) : idxBits b.toNat = b := by
  simp [idxBits]

theorem chanBits_toInt (b : BitVec 16) : chanBits b.toInt = b := by
  simp [chanBits]

theorem fitsIdx_toNat (b : BitVec 16) : fitsIdx b.toNat = true := by
  have := b.isLt
  simp only [fitsIdx, decide_eq_true_eq]; omega

theorem fitsChannel_toInt (b : BitVec 16) : fitsChannel b.toInt = true := by
  have h1 := b.le_toInt
  have h2 := b.toInt_lt
  simp only [fitsChannel, Bool.and_eq_true, decide_eq_true_eq]; omega

end Sys2Proof
end

