-- ==== Sys2Proof/Laws/Commands.lean ====
section
/-! SUPPORT. What each command does, said once: the error it ends with (`perform_of_error`), or what it leaves (`perform_*`). -/

namespace Sys2Proof.Machine

/-- A command's meaning is the transaction model's, at the configured parameters. -/
theorem exec_eq_perform (i : Instr) (s : State) : exec i s = .next (perform Config.params i s).record := by
  cases i <;> rfl

theorem live_iff (l : Life) : l.live = true ↔ l = .constructed ∨ l = .ready := by cases l <;> decide

theorem not_live_iff (l : Life) : l.live = false ↔ l = .empty ∨ l = .destroyed := by cases l <;> decide

theorem code_ne_zero {e : Status} (h : e ≠ .ok) : e.code ≠ 0 := by cases e <;> first | exact absurd rfl h | decide

theorem errorOf_ne_ok {P : Params} {i : Instr} {s : State} {e : Status} (h : errorOf P i s = some e) : e ≠ .ok := by
  unfold errorOf at h
  rintro rfl
  split at h
  · split at h <;> (try split at h) <;> simp_all
  · simp at h

/-- A command with an error is the error outcome and nothing else (R83, R90, R97, R113, R115). -/
theorem perform_of_error {P : Params} {i : Instr} {s : State} {e : Status} (h : errorOf P i s = some e) :
    perform P i s = raise e s := by
  unfold errorOf at h
  cases i <;> cases hl : s.life <;>
    simp_all [admits, perform, doConstruct, doBegin, doSetpx, doUnsetpx, doGetpx, doAllon, doAlloff, doShow, doDestroy,
      withPixel, Life.live]
  all_goals
    intro h1 h2
    exact absurd (h.1 (by omega)) (by omega)

theorem perform_construct {P : Params} {n : Nat} {s : State} (h : errorOf P (.construct n) s = none) :
    perform P (.construct n) s = ⟨{ bufFill s n 0 with nlen := BitVec.ofNat 16 n, life := .constructed }, ⟨.ok, 0⟩, []⟩ := by
  unfold errorOf at h
  cases hl : s.life <;> simp_all [admits, perform, doConstruct, Life.live]
  all_goals
    rw [if_neg (by omega)]
    rfl

theorem perform_begin {P : Params} {s : State} (h : errorOf P .begin s = none) :
    (perform P .begin s).state = { s with latchQ := false, latchOe := true, spiEn := true, life := .ready } ∧
    (perform P .begin s).rsp = ⟨.ok, 0⟩ ∧
    (perform P .begin s).evs = onChange s.latchQ false (.latch false) ++
      onChange s.latchOe true (.latchDrive true) ++ onChange s.spiEn true (.spiEnable true) := by
  unfold errorOf at h
  cases hl : s.life <;> simp_all [admits, perform, doBegin]

theorem perform_destroy {P : Params} {s : State} (h : errorOf P .destroy s = none) :
    (perform P .destroy s).state =
      { bufForget s with nlen := 0, latchOe := false, spiEn := false, life := .destroyed } ∧
    (perform P .destroy s).rsp = ⟨.ok, 0⟩ ∧
    (perform P .destroy s).evs =
      onChange s.latchOe false (.latchDrive false) ++ onChange s.spiEn false (.spiEnable false) := by
  unfold errorOf at h
  cases hl : s.life <;> simp_all [admits, perform, doDestroy, Life.live]

theorem perform_status (P : Params) (s : State) : perform P .status s = ⟨s, ⟨.ok, statusWord s⟩, []⟩ := rfl

/-- When a pixel command has no error. -/
theorem pixel_errorOf_none {P : Params} {i : Nat} {c : Instr} {s : State}
    (hc : c = .unsetpx i ∨ c = .getpx i ∨ ∃ r g b gc, c = .setpx i r g b gc) :
    errorOf P c s = none ↔ s.life.live = true ∧ i < s.nlen.toNat := by
  rcases hc with rfl | rfl | ⟨r, g, b, gc, rfl⟩ <;> cases hl : s.life <;> simp [errorOf, admits, hl, Life.live]

theorem withPixel_ok {i : Nat} {s : State} (hl : s.life.live = true) (hi : i < s.nlen.toNat) (body : Done) :
    withPixel i s body = body := by
  rw [withPixel, if_pos hl, if_pos hi]

theorem perform_setpx {P : Params} {i : Nat} {r g b : Int} {gc : Bool} {s : State} (hl : s.life.live = true)
    (hi : i < s.nlen.toNat) : perform P (.setpx i r g b gc) s = ⟨bufWrite s i (encodeColor P r g b gc), ⟨.ok, 0⟩, []⟩ :=
  withPixel_ok hl hi _

theorem perform_unsetpx {P : Params} {i : Nat} {s : State} (hl : s.life.live = true) (hi : i < s.nlen.toNat) :
    perform P (.unsetpx i) s = ⟨bufWrite s i (encodeColor P 0 0 0 true), ⟨.ok, 0⟩, []⟩ :=
  withPixel_ok hl hi _

theorem perform_getpx {P : Params} {i : Nat} {s : State} (hl : s.life.live = true) (hi : i < s.nlen.toNat) :
    perform P (.getpx i) s = ⟨s, ⟨.ok, bufRead s i⟩, []⟩ :=
  withPixel_ok hl hi _

/-- When a frame command has no error. -/
theorem frame_errorOf_none {P : Params} {c : Instr} {s : State}
    (hc : c = .showFrame ∨ c = .alloff ∨ ∃ r g b gc, c = .allon r g b gc) :
    errorOf P c s = none ↔ s.life = .ready := by
  rcases hc with rfl | rfl | ⟨r, g, b, gc, rfl⟩ <;> simp [errorOf, admits]

/-- A frame command's outcome from the state its frame starts in. -/
def frameDone (s : State) : Done :=
  ⟨{ s with latchQ := false }, ⟨.ok, 0⟩, frameBytes s s.nlen.toNat ++ pulseEvents s.latchQ⟩

theorem frame_succeed (s : State) : (start s).frame.succeed 0 = frameDone s := by
  have h := frame_evs (start s)
  simp only [start_state, start_evs, List.nil_append] at h
  simp only [Run.succeed, frameDone, frame_state, start_state, h]

theorem perform_show {P : Params} {s : State} (h : s.life = .ready) : perform P .showFrame s = frameDone s := by
  show doShow s = _
  rw [doShow, if_pos h, frame_succeed]

theorem perform_allon {P : Params} {r g b : Int} {gc : Bool} {s : State} (h : s.life = .ready) :
    perform P (.allon r g b gc) s = frameDone (bufFill s s.nlen.toNat (encodeColor P r g b gc)) := by
  show doAllon P r g b gc s = _
  rw [doAllon, if_pos h, frame_succeed]

theorem perform_alloff {P : Params} {s : State} (h : s.life = .ready) :
    perform P .alloff s = frameDone (bufFill s s.nlen.toNat 0) := by
  show doAlloff s = _
  rw [doAlloff, if_pos h, frame_succeed]

/-- A frame of equal packets. -/
theorem frameBytes_const (s : State) (p : Packet) (n : Nat) (h : ∀ i, i < n → bufRead s i = p) :
    frameBytes s n = (List.replicate n (packetBytes p)).flatten := by
  induction n with
  | zero => rfl
  | succ k ih =>
    rw [frameBytes, h k (by omega), ih fun i hi => h i (by omega)]
    rfl

/-- One inversion for a command: an error and its outcome, or no error. -/
theorem perform_cases (P : Params) (i : Instr) (s : State) :
    (∃ e, errorOf P i s = some e ∧ e ≠ .ok ∧ perform P i s = raise e s) ∨ errorOf P i s = none := by
  cases h : errorOf P i s with
  | none => exact .inr rfl
  | some e => exact .inl ⟨e, rfl, errorOf_ne_ok h, perform_of_error h⟩

/-- A command without an error answers OK. -/
theorem perform_status_ok {P : Params} {i : Instr} {s : State} (h : errorOf P i s = none) :
    (perform P i s).rsp.status = .ok := by
  cases i with
  | construct n => rw [perform_construct h]
  | begin => rw [(perform_begin h).2.1]
  | setpx idx r g b gc =>
    obtain ⟨hl, hi⟩ := (pixel_errorOf_none (.inr (.inr ⟨r, g, b, gc, rfl⟩))).1 h
    rw [perform_setpx hl hi]
  | unsetpx idx =>
    obtain ⟨hl, hi⟩ := (pixel_errorOf_none (.inl rfl)).1 h
    rw [perform_unsetpx hl hi]
  | allon r g b gc =>
    rw [perform_allon ((frame_errorOf_none (.inr (.inr ⟨r, g, b, gc, rfl⟩))).1 h)]; rfl
  | alloff => rw [perform_alloff ((frame_errorOf_none (.inr (.inl rfl))).1 h)]; rfl
  | showFrame => rw [perform_show ((frame_errorOf_none (.inl rfl)).1 h)]; rfl
  | getpx idx =>
    obtain ⟨hl, hi⟩ := (pixel_errorOf_none (.inr (.inl rfl))).1 h
    rw [perform_getpx hl hi]
  | destroy => rw [(perform_destroy h).2.1]
  | status => rfl

/-- No command touches the host's inputs, the observation so far or the hidden state. -/
theorem perform_outside (P : Params) (i : Instr) (s : State) :
    (perform P i s).state.host = s.host ∧ (perform P i s).state.trace = s.trace ∧ (perform P i s).state.seq = s.seq := by
  rcases perform_cases P i s with ⟨e, -, -, hp⟩ | hn
  · rw [hp]; exact ⟨rfl, rfl, rfl⟩
  cases i with
  | construct n => rw [perform_construct hn]; exact ⟨rfl, rfl, rfl⟩
  | begin => rw [(perform_begin hn).1]; exact ⟨rfl, rfl, rfl⟩
  | setpx idx r g b gc =>
    obtain ⟨hl, hi⟩ := (pixel_errorOf_none (.inr (.inr ⟨r, g, b, gc, rfl⟩))).1 hn
    rw [perform_setpx hl hi]; exact ⟨rfl, rfl, rfl⟩
  | unsetpx idx =>
    obtain ⟨hl, hi⟩ := (pixel_errorOf_none (.inl rfl)).1 hn
    rw [perform_unsetpx hl hi]; exact ⟨rfl, rfl, rfl⟩
  | allon r g b gc =>
    rw [perform_allon ((frame_errorOf_none (.inr (.inr ⟨r, g, b, gc, rfl⟩))).1 hn)]; exact ⟨rfl, rfl, rfl⟩
  | alloff => rw [perform_alloff ((frame_errorOf_none (.inr (.inl rfl))).1 hn)]; exact ⟨rfl, rfl, rfl⟩
  | showFrame => rw [perform_show ((frame_errorOf_none (.inl rfl)).1 hn)]; exact ⟨rfl, rfl, rfl⟩
  | getpx idx =>
    obtain ⟨hl, hi⟩ := (pixel_errorOf_none (.inr (.inl rfl))).1 hn
    rw [perform_getpx hl hi]; exact ⟨rfl, rfl, rfl⟩
  | destroy => rw [(perform_destroy hn).1]; exact ⟨rfl, rfl, rfl⟩
  | status => exact ⟨rfl, rfl, rfl⟩

/-- The one item a command adds to the observation. -/
theorem perform_record_trace (P : Params) (i : Instr) (s : State) :
    (perform P i s).record.trace = s.trace ++ [.response (perform P i s).rsp (perform P i s).evs] := by
  rw [record_trace, (perform_outside P i s).2.1]

end Sys2Proof.Machine
end

