-- ==== Sys2Proof/Laws/Chain.lean ====
section
/-! SUPPORT. The chain observer: what the bytes of a packet, and of a frame, leave in the shift registers (R12, R44). -/

namespace Sys2Proof.Machine

/-- A whole packet shifted in: each module passes the packet it held on to the next. -/
def shiftPacket : Packet → List Packet → List Packet
  | _, [] => []
  | p, m :: ms => p :: shiftPacket m ms

/-- The four bytes of a packet leave it in the first register, whatever the register held. -/
theorem register_after_packet (p m : Packet) :
    ((((m.extractLsb' 0 24 ++ p.extractLsb' 24 8 : BitVec 32).extractLsb' 0 24 ++ p.extractLsb' 16 8 : BitVec 32).extractLsb' 0 24
      ++ p.extractLsb' 8 8 : BitVec 32).extractLsb' 0 24 ++ p.extractLsb' 0 8 : BitVec 32) = p := by
  apply BitVec.eq_of_getLsbD_eq
  intro i hi
  simp only [BitVec.getLsbD_append, BitVec.getLsbD_extractLsb']
  by_cases h1 : i < 8
  · simp [h1]
  · by_cases h2 : i < 16
    · have : i - 8 < 8 := by omega
      simp [h1, this, show i - 8 < 24 by omega, show 8 + (i - 8) = i by omega]
    · by_cases h3 : i < 24
      · simp [h1, show ¬ (i - 8 < 8) by omega, show i - 8 < 24 by omega, show i - 8 - 8 < 24 by omega, show i - 8 - 8 < 8 by omega,
          show 16 + (i - 8 - 8) = i by omega]
      · simp [h1, show ¬ (i - 8 < 8) by omega, show i - 8 < 24 by omega, show i - 8 - 8 < 24 by omega,
          show ¬ i - 8 - 8 < 8 by omega, show i - 8 - 8 - 8 < 8 by omega,
          show 24 + (i - 8 - 8 - 8) = i by omega, show i - 8 - 8 - 8 < 24 by omega]

/-- After one byte, the register's bits `k + 8` up are the bits `k` up it had. -/
theorem extract_after_byte (m : BitVec 32) (a : Byte) (k : Nat) (hk : k ≤ 16) :
    (m.extractLsb' 0 24 ++ a : BitVec 32).extractLsb' (k + 8) 8 = m.extractLsb' k 8 := by
  apply BitVec.eq_of_getLsbD_eq
  intro i hi
  simp only [BitVec.getLsbD_append, BitVec.getLsbD_extractLsb', hi, show ¬ k + 8 + i < 8 by omega,
    show 0 + (k + 8 + i - 8) = k + i by omega, show k + 8 + i - 8 < 24 by omega]
  rfl

/-- Four bytes shift a whole packet. -/
theorem shiftByte_packet : ∀ (ms : List Packet) (p : Packet),
    shiftByte (p.extractLsb' 0 8) (shiftByte (p.extractLsb' 8 8) (shiftByte (p.extractLsb' 16 8)
      (shiftByte (p.extractLsb' 24 8) ms))) = shiftPacket p ms := by
  intro ms
  induction ms with
  | nil => intro p; rfl
  | cons m ms ih =>
    intro p
    have h16 : ∀ (x : BitVec 32) (a : Byte), (x.extractLsb' 0 24 ++ a : BitVec 32).extractLsb' 24 8 = x.extractLsb' 16 8 :=
      fun x a => extract_after_byte x a 16 (by omega)
    have h8 : ∀ (x : BitVec 32) (a : Byte), (x.extractLsb' 0 24 ++ a : BitVec 32).extractLsb' 16 8 = x.extractLsb' 8 8 :=
      fun x a => extract_after_byte x a 8 (by omega)
    have h0 : ∀ (x : BitVec 32) (a : Byte), (x.extractLsb' 0 24 ++ a : BitVec 32).extractLsb' 8 8 = x.extractLsb' 0 8 :=
      fun x a => extract_after_byte x a 0 (by omega)
    simp only [shiftByte, shiftPacket]
    rw [register_after_packet, ← ih m]
    simp only [h16, h8, h0]

theorem shiftByte_length : ∀ (ms : List Packet) (b : Byte), (shiftByte b ms).length = ms.length := by
  intro ms
  induction ms with
  | nil => intro b; rfl
  | cons m ms ih => intro b; simp [shiftByte, ih]

@[simp] theorem unknown_length (c : Chain) : c.unknown.regs.length = c.regs.length := by simp [Chain.unknown]

theorem byte_of_length {n : Nat} {c : Chain} (h : c.regs.length = n) (b : Byte) :
    c.byte n b = { c with regs := shiftByte b c.regs } := if_pos h

theorem byte_of_other_length {n : Nat} {c : Chain} (h : c.regs.length ≠ n) (b : Byte) : c.byte n b = c.unknown := if_neg h

@[simp] theorem byte_length (n : Nat) (b : Byte) (c : Chain) : (c.byte n b).regs.length = c.regs.length := by
  unfold Chain.byte
  split
  · exact shiftByte_length _ _
  · exact unknown_length c

/-- Only the end of a pulse changes the display (R136). -/
theorem event_display (n : Nat) (c : Chain) {e : Event} (h : e ≠ .latch false) : (c.event n e).display = c.display := by
  cases e with
  | latch v =>
    cases v
    · exact absurd rfl h
    · rfl
  | byte b => show (c.byte n b).display = _; unfold Chain.byte; split <;> rfl
  | latchDrive d => rfl
  | spiEnable e => rfl

theorem events_append (n : Nat) (c : Chain) (a b : List Event) : c.events n (a ++ b) = (c.events n a).events n b :=
  List.foldl_append

theorem events_packetBytes {n : Nat} {c : Chain} (h : c.regs.length = n) (p : Packet) :
    c.events n (packetBytes p) = { c with regs := shiftPacket p c.regs } := by
  rw [← shiftByte_packet]
  simp only [Chain.events, packetBytes, List.foldl, Chain.event]
  repeat rw [byte_of_length (by simpa [shiftByte_length] using h)]

/-- In a chain of another length, bytes leave free values in the shift registers (R135). -/
theorem events_bytes_of_other_length {n : Nat} (evs : List Event) : ∀ {c : Chain}, c.regs.length ≠ n →
    (∀ e ∈ evs, ∃ b, e = .byte b) → evs ≠ [] → ∃ k, c.freeIx ≤ k ∧ c.events n evs =
      { c with regs := (List.range c.regs.length).map (Config.unknownRegister k), freeIx := k + 1 } := by
  induction evs with
  | nil => intro c _ _ h; exact absurd rfl h
  | cons e evs ih =>
    intro c hc hb _
    obtain ⟨b, rfl⟩ := hb e (by simp)
    have he : c.events n (.byte b :: evs) = c.unknown.events n evs := by
      show (c.byte n b).events n evs = _
      rw [byte_of_other_length hc]
    rw [he]
    by_cases hn : evs = []
    · subst hn
      exact ⟨c.freeIx, Nat.le_refl _, rfl⟩
    · obtain ⟨k, hk, h⟩ := ih (c := c.unknown) (by simpa using hc) (fun x hx => hb x (by simp [hx])) hn
      refine ⟨k, Nat.le_of_succ_le hk, ?_⟩
      rw [h, unknown_length]
      rfl

theorem shiftPacket_eq_take : ∀ (ms : List Packet) (p : Packet), shiftPacket p ms = (p :: ms).take ms.length := by
  intro ms
  induction ms with
  | nil => intros; rfl
  | cons m ms ih => intro p; simp [shiftPacket, ih m]

theorem packetsFrom_snoc (s : State) : ∀ n k : Nat, packetsFrom s k (n + 1) = packetsFrom s k n ++ [bufRead s (k + n)] := by
  intro n
  induction n with
  | zero => intro k; rfl
  | succ n ih =>
    intro k
    rw [packetsFrom, ih (k + 1)]
    simp [packetsFrom, show k + 1 + n = k + (n + 1) by omega]

@[simp] theorem packetsFrom_length (s : State) : ∀ n k : Nat, (packetsFrom s k n).length = n := by
  intro n
  induction n with
  | zero => intro; rfl
  | succ n ih => intro k; simp [packetsFrom, ih]

theorem packetsFrom_congr {s t : State} (h : ∀ i, bufRead t i = bufRead s i) :
    ∀ n k : Nat, packetsFrom t k n = packetsFrom s k n := by
  intro n
  induction n with
  | zero => intro; rfl
  | succ n ih => intro k; simp [packetsFrom, ih, h]

@[simp] theorem shiftPacket_length (p : Packet) (ms : List Packet) : (shiftPacket p ms).length = ms.length := by
  rw [shiftPacket_eq_take]; simp

/-- The bytes of a frame of `k` packets leave `BUF[0..k-1]` in the first `k` modules. -/
theorem events_frameBytes {n : Nat} (s : State) : ∀ (k : Nat) {c : Chain}, c.regs.length = n →
    c.events n (frameBytes s k) = { c with regs := (packetsFrom s 0 k ++ c.regs).take c.regs.length } := by
  intro k
  induction k with
  | zero => intro c _; simp [frameBytes, packetsFrom, Chain.events]
  | succ k ih =>
    intro c hc
    rw [frameBytes, events_append, events_packetBytes hc, ih (by simpa using hc), packetsFrom_snoc]
    simp only [shiftPacket_eq_take]
    have hlen : ((bufRead s k :: c.regs).take c.regs.length).length = c.regs.length := by simp
    rw [hlen]
    congr 1
    rw [List.append_assoc, Nat.zero_add]
    generalize packetsFrom s 0 k = a
    simp only [List.take_append, List.singleton_append]
    rw [List.take_take]
    congr 2
    omega

/-- A frame's events before its pulse are bytes. -/
theorem frameBytes_bytes (s : State) : ∀ k : Nat, ∀ e ∈ frameBytes s k, ∃ b, e = .byte b := by
  intro k
  induction k with
  | zero => intro e h; cases h
  | succ k ih =>
    intro e h
    simp only [frameBytes, packetBytes, List.mem_append, List.mem_cons, List.not_mem_nil, or_false] at h
    rcases h with (rfl | rfl | rfl | rfl) | h
    · exact ⟨_, rfl⟩
    · exact ⟨_, rfl⟩
    · exact ⟨_, rfl⟩
    · exact ⟨_, rfl⟩
    · exact ih e h

end Sys2Proof.Machine
end

