-- ==== Sys2Proof/Laws/Gamma.lean ====
section
/-! SUPPORT. The simulation stand-in table of R82 against its curve. -/

namespace Sys2Proof.Machine

/-- The whole-number test is the curve's (R82): both sides raised to the fifth power. -/
theorem gammaRefReaches_iff (x y : Nat) (hy : 1 ≤ y) :
    gammaRefReaches x y = true ↔ (y : ℝ) ≤ 1023 * ((x : ℝ) / 1023) ^ (2.8 : ℝ) + 1 / 2 := by
  unfold gammaRefReaches
  rw [decide_eq_true_iff]
  set z : ℝ := ((x : ℝ) / 1023) ^ (2.8 : ℝ) with hz
  have hz0 : 0 ≤ z := Real.rpow_nonneg (by positivity) _
  have hz5 : z ^ 5 = ((x : ℝ) / 1023) ^ 14 := by
    rw [hz, ← Real.rpow_natCast, ← Real.rpow_mul (by positivity), ← Real.rpow_natCast]
    norm_num
  have e1 : ((y : ℝ) ≤ 1023 * z + 1 / 2) ↔ (2 * (y : ℝ) - 1) ≤ 2046 * z := by constructor <;> intro h <;> linarith
  have hy' : (1 : ℝ) ≤ y := by exact_mod_cast hy
  rw [e1, ← pow_le_pow_iff_left₀ (a := 2 * (y : ℝ) - 1) (b := 2046 * z) (by linarith) (by positivity)
    (show (5 : ℕ) ≠ 0 by norm_num), mul_pow, hz5, div_pow]
  have e2 : (2 * (y:ℝ) - 1) = ((2 * y - 1 : ℕ) : ℝ) := by rw [Nat.cast_sub (by omega)]; push_cast; ring
  rw [e2]
  have e3 : (2046 : ℝ) ^ 5 * ((x : ℝ) ^ 14 / 1023 ^ 14) = (32 * (x : ℝ) ^ 14) / 1023 ^ 9 := by
    rw [show (2046 : ℝ) = 2 * 1023 by norm_num, mul_pow]; field_simp; norm_num [mul_comm]
  rw [e3, le_div_iff₀ (by positivity)]
  exact_mod_cast Iff.rfl

theorem gammaRefCount_le (x n : Nat) : gammaRefCount x n ≤ n := by
  induction n with
  | zero => exact Nat.le_refl _
  | succ n ih => simp only [gammaRefCount]; split <;> omega

theorem gammaRef_toNat (x : U10) : (gammaRef x).toNat = gammaRefCount x.toNat 1023 := by
  have hle := gammaRefCount_le x.toNat 1023
  unfold gammaRef
  simp only [BitVec.toNat_ofNat]
  exact Nat.mod_eq_of_lt (by omega)

end Sys2Proof.Machine
end

