-- ==== Sys2Proof/Laws/Ports.lean ====
section
/-! SUPPORT. The cycle-level machine: where a command under way ends, and that no clock edge changes it. -/

namespace Sys2Proof.Machine

/-- The block is ready exactly when it is idle (R30(b)). -/
theorem idle_iff (s : State) : isIdle s = true ↔ s.seq = .idle := by
  unfold isIdle; split <;> simp_all

/-- What `complete` makes of a command under way, by the work left. -/
theorem complete_continue (w : Work) (r : Run) : complete (r.continue w) =
  match w with
    | .filling .construct k n v =>
      Run.wrapUp ⟨finishConstruct n { r.state with buf := memFill k (n - k) v r.state.buf }, r.evs⟩
    | .filling .frame k n v => (Run.frame ⟨{ r.state with buf := memFill k (n - k) v r.state.buf }, r.evs⟩).wrapUp
    | .sending k j => (r.emit ((packetBytes (bufRead r.state k)).drop j.val ++ frameBytes r.state k)).latchPulse.wrapUp
    | .latchSetup _ => r.latchPulse.wrapUp
    | .latchHigh _ => (r.setLatchQ false).wrapUp
    | .finishing => r.wrapUp := by
  have hc : ∀ n, frameBytes (r.continue w) n = frameBytes r.state n :=
    fun n => frameBytes_congr (t := r.continue w) (s := r.state) (fun i => bufRead_congr rfl rfl i) n
  cases w with
  | filling job k n v =>
    cases job
    · rfl
    · simp only [complete, Run.continue, Run.wrapUp, Done.record, frame_state, frame_evs]
      rw [frameBytes_congr
        (t := { r.state with buf := memFill k (n - k) v r.state.buf, seq := .busy (.filling .frame k n v) r.evs })
        (s := { r.state with buf := memFill k (n - k) v r.state.buf }) (fun i => bufRead_congr rfl rfl i)]
  | sending k j =>
    simp only [complete, Run.continue, Run.wrapUp, Done.record, latchPulse_state, latchPulse_evs, Run.emit] at hc ⊢
    rw [hc]
    rfl
  | latchSetup t => rfl
  | latchHigh t => rfl
  | finishing => rfl

/-- A held response is taken. -/
theorem complete_hold (d : Done) : complete (hold d) = ({ d with state := { d.state with seq := .idle } } : Done).record := rfl

/-- From the last byte on only the latch pulse is left. -/
theorem complete_startLatch (P : Params) (r : Run) : complete (startLatch P r) = r.latchPulse.wrapUp := by
  unfold startLatch
  split
  · rw [complete_continue]; rfl
  · rw [complete_continue]

/-- A frame that starts completes to the transaction model's frame (R98). -/
theorem complete_startFrame (P : Params) (r : Run) : complete (startFrame P r) = r.frame.wrapUp := by
  unfold startFrame Run.frame
  split
  · rename_i h
    rw [h, complete_startLatch]
    simp only [frameBytes]
    simp only [Run.emit, List.append_nil]
  · rename_i k h
    rw [complete_continue, h]
    rfl

/-- The bytes of a packet from byte `j` on. -/
theorem packet_drop (p : Packet) (j : Fin 4) :
    (packetBytes p).drop j.val = .byte (wireByte p j) :: (packetBytes p).drop (j.val + 1) := by
  match j with
  | 0 => rfl
  | 1 => rfl
  | 2 => rfl
  | 3 => rfl

/-- A completed byte changes nothing of where its command ends. -/
theorem complete_byteDone (P : Params) (k : Nat) (j : Fin 4) (r : Run) :
    complete (byteDone P k j r) =
      (r.emit ((packetBytes (bufRead r.state k)).drop j.val ++ frameBytes r.state k)).latchPulse.wrapUp := by
  unfold byteDone
  have e : ∀ a b, (r.emit a).emit b = r.emit (a ++ b) := fun a b => by simp [Run.emit]
  have d4 : ∀ p, (packetBytes p).drop 4 = [] := fun p => rfl
  dsimp only
  split
  · rename_i hj
    rw [complete_continue]
    dsimp only
    rw [e, packet_drop _ j]
    have : (j + 1).val = j.val + 1 := by
      match j, hj with
      | 0, _ => rfl
      | 1, _ => rfl
      | 2, _ => rfl
    rw [this]; rfl
  · rename_i hj
    have hj3 : j.val = 3 := by omega
    rw [packet_drop, hj3, d4]
    split
    · rw [complete_startLatch]; rfl
    · rw [complete_continue]; dsimp only; rw [e]; rfl

/-- No edge of a busy block changes where its command ends. -/
theorem complete_workEdge (P : Params) (p : PortsIn) (w : Work) (r : Run) :
    complete (workEdge P p w r) = complete (r.continue w) := by
  cases w with
  | filling job k n v =>
    simp only [workEdge]
    split
    · rename_i h
      have hf : memFill k (n - k) v r.state.buf = memFill (k + 1) (n - (k + 1)) v (memWrite r.state.buf k v) := by
        rw [show n - k = (n - (k + 1)) + 1 by omega]; rfl
      rw [complete_continue, complete_continue]
      cases job <;> simp only [hf, bufWrite]
    · rename_i h
      have hk : n - k = 0 := by omega
      rw [complete_continue]
      cases job
      · simp only [hk, memFill]; rfl
      · simp only [hk, memFill]; exact complete_startFrame P r
  | sending k j =>
    simp only [workEdge]
    split
    · rw [complete_byteDone, complete_continue]
    · rfl
  | latchSetup t =>
    simp only [workEdge]
    split
    · rw [complete_continue, complete_continue]; rfl
    · rw [complete_continue, complete_continue]
  | latchHigh t =>
    simp only [workEdge]
    split <;> rw [complete_continue, complete_continue]
  | finishing => rfl

/-- An accepted command completes to its transaction (R8, R34). -/
theorem complete_accept (P : Params) (w : Word) (s : State) (hs : s.seq = .idle) :
    complete (accept P w s) = (transact P w s).record := by
  have hh : complete (hold (transact P w s)) = (transact P w s).record := by
    have : (transact P w s).state.seq = .idle := by
      unfold transact
      cases decode w with
      | cmd i => rw [(perform_outside P i s).2.2, hs]
      | illegal _ => exact hs
    rw [complete_hold, ← this]
  have w0 : ∀ r : Run, r.state.seq = .idle → r.wrapUp = (r.succeed 0).record := by
    intro r hr; simp only [Run.wrapUp, Run.succeed, ← hr]
  unfold accept
  cases hd : decode w with
  | illegal _ => exact hh
  | cmd i =>
    have ht : transact P w s = perform P i s := by unfold transact; rw [hd]
    cases i with
    | construct n =>
      dsimp only
      split
      · exact hh
      · rename_i hn
        rw [complete_continue, ht]
        have he : errorOf P (.construct n) s = none := by
          unfold errorOf
          simp only [not_or, Bool.not_eq_true] at hn
          rcases (not_live_iff _).1 hn.1 with hl | hl <;> simp [admits, hl] <;> omega
        rw [perform_construct he]
        exact w0 _ hs
    | allon r g b gc =>
      dsimp only
      split
      · rename_i hl
        rw [complete_continue, ht, perform_allon hl, ← frame_succeed]
        exact w0 _ hs
      · exact hh
    | alloff =>
      dsimp only
      split
      · rename_i hl
        rw [complete_continue, ht, perform_alloff hl, ← frame_succeed]
        exact w0 _ hs
      · exact hh
    | showFrame =>
      dsimp only
      split
      · rename_i hl
        rw [complete_startFrame, ht, perform_show hl, ← frame_succeed]
        exact w0 _ hs
      · exact hh
    | begin => exact hh
    | setpx i r g b gc => exact hh
    | unsetpx i => exact hh
    | getpx i => exact hh
    | destroy => exact hh
    | status => exact hh

end Sys2Proof.Machine
end

