-- ==== Sys2Proof/Laws/Invariant.lean ====
section
/-! SUPPORT. What keeps the invariant: the buffer's part, the levels, and each operation of the cycle-level machine. -/

namespace Sys2Proof.Machine

/-- The buffer's part of the invariant: canonical, within `MAX_N`, and a built packet at each of the first `n` indexes. -/
structure BufOk (P : Params) (n : Nat) (m : Memory) : Prop where
  wf : m.wf
  bound : ∀ i p, memFind m i = some p → i < P.maxN
  packets : ∀ i, i < n → ∃ p, memFind m i = some p ∧ builtPacket P p

theorem BufOk.write {P : Params} {n i : Nat} {m : Memory} {v : Packet} (h : BufOk P n m) (hi : i < P.maxN)
    (hv : builtPacket P v) : BufOk P n (memWrite m i v) where
  wf := memWrite_wf m i v h.wf
  bound := by
    intro j p hj
    rw [memFind_memWrite] at hj
    split at hj
    · omega
    · exact h.bound j p hj
  packets := by
    intro j hj
    rw [memFind_memWrite]
    split
    · exact ⟨v, rfl, hv⟩
    · exact h.packets j hj

theorem BufOk.fill {P : Params} {n : Nat} {v : Packet} (count : Nat) : ∀ {m : Memory} {k : Nat}, BufOk P n m →
    k + count ≤ P.maxN → builtPacket P v → BufOk P n (memFill k count v m) := by
  induction count with
  | zero => intro m k h _ _; exact h
  | succ count ih => intro m k h hk hv; exact ih (h.write (by omega) hv) (by omega) hv

/-- The entries that hold packets: those of the instance, if there is one. -/
def liveEntries (s : State) : Nat := if s.life.live then s.nlen.toNat else 0

theorem Inv.bufOk {P : Params} {s : State} (h : Inv P s) : BufOk P (liveEntries s) s.buf := by
  refine ⟨h.buf_wf, h.buf_bound, fun i hi => ?_⟩
  unfold liveEntries at hi
  split at hi
  · exact h.packets ‹_› i hi
  · omega

/-- The invariant of a state with the same instance and levels: what is left to show. -/
theorem Inv.keep {P : Params} {s t : State} (h : Inv P s) (hl : t.life = s.life) (hn : t.nlen = s.nlen)
    (ho : t.latchOe = s.latchOe) (he : t.spiEn = s.spiEn) (herr : t.err.toNat ≤ 4) (hb : BufOk P (liveEntries s) t.buf)
    (hq : t.latchQ = true ↔ t.seq.inPulse = true) (hs : t.seq.ok P t) : Inv P t where
  live_iff := by rw [hl, hn]; exact h.live_iff
  no_instance := by rw [hl, hn]; exact h.no_instance
  latchOe_iff := by rw [hl, ho]; exact h.latchOe_iff
  spiEn_iff := by rw [hl, he]; exact h.spiEn_iff
  latchQ_iff := hq
  err_le := herr
  buf_wf := hb.wf
  buf_bound := hb.bound
  packets := by
    rw [hl, hn]
    intro hv i hi
    exact hb.packets i (by rw [liveEntries, if_pos hv]; exact hi)
  seq_ok := hs

/-- A recorded error is a code of R108 (R26). -/
theorem stickyErr_le {x : BitVec 4} (e : Status) (h : x.toNat ≤ 4) : (stickyErr x e).toNat ≤ 4 := by
  have hc : e.code.toNat ≤ 4 := by cases e <;> decide
  unfold stickyErr
  split
  · exact hc
  · exact h

theorem Inv.instance_le {P : Params} {s : State} (h : Inv P s) (hl : s.life.live = true) : s.nlen.toNat ≤ P.maxN :=
  (h.live_iff.1 hl).2

theorem Inv.work {P : Params} {s : State} (h : Inv P s) {w : Work} {e : List Event} (hs : s.seq = .busy w e) : w.ok P s := by
  have hk := h.seq_ok
  rw [hs] at hk
  exact hk

/-- Outside the latch pulse the latch is low (R24). -/
theorem Inv.latch_low {P : Params} {s : State} (h : Inv P s) (hs : s.seq.inPulse = false) : s.latchQ = false := by
  cases hc : s.latchQ
  · rfl
  · have hp := h.latchQ_iff.1 hc
    rw [hs] at hp
    cases hp

/-- The inputs still to come are no part of the invariant. -/
theorem Inv.host {P : Params} {s : State} (h : Inv P s) (inputs : List HostInput) : Inv P { s with host := inputs } :=
  h.keep rfl rfl rfl rfl h.err_le h.bufOk h.latchQ_iff (by
    have hk := h.seq_ok
    revert hk
    show s.seq.ok P s → s.seq.ok P _
    cases s.seq with
    | idle => exact id
    | responding r e => exact id
    | busy w e =>
      cases w with
      | filling job k n v => cases job <;> exact id
      | sending k j => exact id
      | latchSetup t => exact id
      | latchHigh t => exact id
      | finishing => exact id)

/-- Not busy: idle, or a response waiting. -/
def Settled (x : Sequencer) : Prop := x = .idle ∨ ∃ r e, x = .responding r e

theorem Settled.not_inPulse {x : Sequencer} (h : Settled x) : x.inPulse = false := by
  rcases h with rfl | ⟨r, e, rfl⟩ <;> rfl

theorem Settled.ok {x : Sequencer} (h : Settled x) (P : Params) (s : State) : x.ok P s := by
  rcases h with rfl | ⟨r, e, rfl⟩ <;> trivial

/-- A command ends with the latch low. -/
theorem Inv.settle {P : Params} {s : State} (h : Inv P s) (buf : Memory) (hb : BufOk P (liveEntries s) buf) (x : Sequencer)
    (hx : Settled x) (tr : List Obs) : Inv P { s with latchQ := false, buf := buf, seq := x, trace := tr } :=
  h.keep rfl rfl rfl rfl h.err_le hb (by simp [hx.not_inPulse]) (hx.ok P _)

/-- A command stays under way, the latch level as its work says. -/
theorem Inv.busy {P : Params} {s : State} (h : Inv P s) (buf : Memory) (hb : BufOk P (liveEntries s) buf) (w : Work)
    (e : List Event) (q : Bool) (hq : q = (Sequencer.busy w e).inPulse)
    (hw : w.ok P { s with latchQ := q, buf := buf, seq := .busy w e }) :
    Inv P { s with latchQ := q, buf := buf, seq := .busy w e } :=
  h.keep rfl rfl rfl rfl h.err_le hb (by simp [hq]) hw

/-- CONSTRUCT's last writes (R84), from a buffer whose first `n` entries are zero. -/
theorem Inv.constructed {P : Params} {s : State} (hP : P.Valid) (h : Inv P s) (hq : s.latchQ = false) (n : Nat) (h1 : 1 ≤ n)
    (h2 : n ≤ P.maxN) (hl : s.life.live = false) (buf : Memory) (hw : buf.wf)
    (hb : ∀ i p, memFind buf i = some p → i < P.maxN) (hz : ∀ i, i < n → memFind buf i = some 0) (x : Sequencer)
    (hx : Settled x) (tr : List Obs) :
    Inv P { s with buf := buf, nlen := BitVec.ofNat 16 n, life := .constructed, seq := x, trace := tr } := by
  have hnat : (BitVec.ofNat 16 n).toNat = n := by
    have hm := hP.maxN_le
    simp only [BitVec.toNat_ofNat]
    exact Nat.mod_eq_of_lt (by omega)
  have hnr : ¬ s.life = .ready := by
    intro hh
    rw [hh] at hl
    cases hl
  exact {
    live_iff := by simp [Life.live, hnat]; omega
    no_instance := by simp [Life.live]
    latchOe_iff := by have := h.latchOe_iff; simp_all
    spiEn_iff := by have := h.spiEn_iff; simp_all
    latchQ_iff := by simp [hx.not_inPulse, hq]
    err_le := h.err_le
    buf_wf := hw
    buf_bound := hb
    packets := by
      intro _ i hi
      simp only [hnat] at hi
      exact ⟨0, hz i hi, zero_built P⟩
    seq_ok := hx.ok P _ }

/-- A reset keeps the invariant, whatever state it comes in (R127). -/
theorem resetBlock_inv (P : Params) (abandoned : List Event) (cut : Bool) (s : State) : Inv P (resetBlock abandoned cut s) where
  live_iff := by simp [resetBlock, Life.live]
  no_instance := fun _ => rfl
  latchOe_iff := by simp [resetBlock, Run.releaseAll]
  spiEn_iff := by simp [resetBlock, Run.releaseAll]
  latchQ_iff := by simp [resetBlock, Run.releaseAll, Sequencer.inPulse]
  err_le := Nat.zero_le _
  buf_wf := List.Pairwise.nil
  buf_bound := by intro i p hi; cases hi
  packets := by intro hc; cases hc
  seq_ok := trivial

/-- The start of the latch timing keeps the invariant. -/
theorem Inv.startLatch {P : Params} {s : State} (hP : P.Valid) (h : Inv P s) (hr : s.life = .ready) (hq : s.latchQ = false)
    (e : List Event) : Inv P (startLatch P ⟨s, e⟩) := by
  unfold Machine.startLatch
  split
  · exact h.busy _ h.bufOk _ _ true rfl ⟨hr, hP.latchHigh_pos⟩
  · have hb := h.busy _ h.bufOk (.latchSetup P.latchSetup) e false rfl ⟨hr, by omega⟩
    rw [← hq] at hb
    exact hb

/-- The start of a frame keeps the invariant. -/
theorem Inv.startFrame {P : Params} {s : State} (hP : P.Valid) (h : Inv P s) (hr : s.life = .ready) (hq : s.latchQ = false)
    (e : List Event) : Inv P (startFrame P ⟨s, e⟩) := by
  unfold Machine.startFrame
  split
  · exact h.startLatch hP hr hq e
  · rename_i k hk
    dsimp only at hk
    have hb := h.busy _ h.bufOk (.sending k 0) e false rfl ⟨hr, by show k < s.nlen.toNat; omega⟩
    rw [← hq] at hb
    exact hb

/-- A completed byte keeps the invariant. -/
theorem Inv.byteDone {P : Params} {s : State} (hP : P.Valid) (h : Inv P s) (hr : s.life = .ready) (hq : s.latchQ = false)
    (k : Nat) (hk : k < s.nlen.toNat) (j : Fin 4) (e : List Event) : Inv P (byteDone P k j ⟨s, e⟩) := by
  unfold Machine.byteDone
  dsimp only
  split
  · have hb := h.busy _ h.bufOk (.sending k (j + 1)) (e ++ [.byte (wireByte (bufRead s k) j)]) false rfl ⟨hr, hk⟩
    rw [← hq] at hb
    exact hb
  · split
    · exact h.startLatch hP hr hq _
    · rename_i k
      have hb := h.busy _ h.bufOk (.sending k 0) (e ++ [.byte (wireByte (bufRead s (k + 1)) j)]) false rfl
        ⟨hr, by show k < s.nlen.toNat; omega⟩
      rw [← hq] at hb
      exact hb

end Sys2Proof.Machine
end

