-- ==== Sys2Proof/Laws/PerInstr.lean ====
section
/-! SUPPORT. The family MaskedWord: the encoding of a well-formed command meets its row of R58. -/

namespace Sys2Proof.Laws.MaskedWord

/-- `(encode i & mask) == match` for the command's row (R58). -/
def Statement (i : Instr) : Prop := i.wellFormed = true → encode i &&& maskWord i = matchWord i

/-- What a row of R58 says field by field: the match has the opcode and nothing else, and the mask covers the opcode. -/
def IsRow (op : BitVec 8) (m v : Word) : Prop :=
  opField v = op ∧ op &&& opField m = op ∧ rsvField v = 0 ∧ gcField v = false ∧ idxField v = 0 ∧ redField v = 0 ∧
    grnField v = 0 ∧ bluField v = 0

/-- A field that is zero, or that the mask leaves out. -/
theorem field_and {b m v : BitVec 16} (h : b = 0 ∨ m = 0) (hv : v = 0) : b &&& m = v := by
  rw [hv]
  rcases h with rfl | rfl
  · exact BitVec.zero_and
  · exact BitVec.and_zero

/-- A packed word whose fields are each zero or left out by the mask meets the row. -/
theorem packC80_and {op : BitVec 8} {gc : Bool} {idx red grn blu : BitVec 16} {m v : Word} (row : IsRow op m v)
    (h2 : gc = false ∨ gcField m = false) (h3 : idx = 0 ∨ idxField m = 0) (h4 : red = 0 ∨ redField m = 0)
    (h5 : grn = 0 ∨ grnField m = 0) (h6 : blu = 0 ∨ bluField m = 0) : packC80 op gc idx red grn blu &&& m = v := by
  obtain ⟨r1, r2, r3, r4, r5, r6, r7, r8⟩ := row
  refine word_ext ?_ ?_ ?_ ?_ ?_ ?_ ?_
  · rw [rsvField_and, rsvField_packC80, r3]; exact BitVec.zero_and
  · rw [opField_and, opField_packC80, r1, r2]
  · rw [gcField_and, gcField_packC80, r4]
    rcases h2 with rfl | h2
    · rfl
    · rw [h2, Bool.and_false]
  · rw [idxField_and, idxField_packC80, field_and h3 r5]
  · rw [redField_and, redField_packC80, field_and h4 r6]
  · rw [grnField_and, grnField_packC80, field_and h5 r7]
  · rw [bluField_and, bluField_packC80, field_and h6 r8]

/-- The mask of SETPX leaves out every field but the opcode and `rsv` (R58). -/
theorem setpx_mask : gcField 0xFFFE0000000000000000#80 = false ∧ idxField 0xFFFE0000000000000000#80 = 0 ∧
    redField 0xFFFE0000000000000000#80 = 0 ∧ grnField 0xFFFE0000000000000000#80 = 0 ∧
    bluField 0xFFFE0000000000000000#80 = 0 := by decide

/-- The mask of ALLON leaves out `gc` and the channels (R58). -/
theorem allon_mask : gcField 0xFFFEFFFF000000000000#80 = false ∧ redField 0xFFFEFFFF000000000000#80 = 0 ∧
    grnField 0xFFFEFFFF000000000000#80 = 0 ∧ bluField 0xFFFEFFFF000000000000#80 = 0 := by decide

/-- The mask of CONSTRUCT, UNSETPX and GETPX leaves out `idx` (R58). -/
theorem idx_mask : idxField 0xFFFF0000FFFFFFFFFFFF#80 = 0 := by decide

theorem construct (n : Nat) : Statement (.construct n) := fun _ =>
  packC80_and (m := 0xFFFF0000FFFFFFFFFFFF#80) (v := 0x01000000000000000000#80)
    (by unfold IsRow; decide) (.inl rfl) (.inr idx_mask) (.inl rfl) (.inl rfl) (.inl rfl)

theorem begin : Statement .begin := fun _ => by decide

theorem setpx (i : Nat) (r g b : Int) (gc : Bool) : Statement (.setpx i r g b gc) := fun _ =>
  packC80_and (m := 0xFFFE0000000000000000#80) (v := 0x03000000000000000000#80) (by unfold IsRow; decide)
    (.inr setpx_mask.1) (.inr setpx_mask.2.1) (.inr setpx_mask.2.2.1) (.inr setpx_mask.2.2.2.1) (.inr setpx_mask.2.2.2.2)

theorem unsetpx (i : Nat) : Statement (.unsetpx i) := fun _ =>
  packC80_and (m := 0xFFFF0000FFFFFFFFFFFF#80) (v := 0x04000000000000000000#80)
    (by unfold IsRow; decide) (.inl rfl) (.inr idx_mask) (.inl rfl) (.inl rfl) (.inl rfl)

theorem allon (r g b : Int) (gc : Bool) : Statement (.allon r g b gc) := fun _ =>
  packC80_and (m := 0xFFFEFFFF000000000000#80) (v := 0x05000000000000000000#80) (by unfold IsRow; decide)
    (.inr allon_mask.1) (.inl rfl) (.inr allon_mask.2.1) (.inr allon_mask.2.2.1) (.inr allon_mask.2.2.2)

theorem alloff : Statement .alloff := fun _ => by decide

theorem showFrame : Statement .showFrame := fun _ => by decide

theorem getpx (i : Nat) : Statement (.getpx i) := fun _ =>
  packC80_and (m := 0xFFFF0000FFFFFFFFFFFF#80) (v := 0x08000000000000000000#80)
    (by unfold IsRow; decide) (.inl rfl) (.inr idx_mask) (.inl rfl) (.inl rfl) (.inl rfl)

theorem destroy : Statement .destroy := fun _ => by decide

theorem status : Statement .status := fun _ => by decide

end Sys2Proof.Laws.MaskedWord
end

