-- ==== Sys2Proof/Laws/Timing.lean ====
section
/-! SUPPORT. The clock edges a command under way still needs (R138, R139). -/

namespace Sys2Proof.Machine

/-- A command under way has at least one edge to go. -/
theorem workLeft_pos (P : Params) (s : State) (w : Work) : 1 ≤ workLeft P s w := by
  cases w with
  | filling job k n v => cases job <;> simp only [workLeft] <;> omega
  | _ => simp only [workLeft]; omega

/-- The work left where the latch timing starts (R32). -/
theorem workLeft_startLatch {P : Params} (s : State) (e : List Event) : ∃ w' e',
    (startLatch P ⟨s, e⟩).seq = .busy w' e' ∧ workLeft P (startLatch P ⟨s, e⟩) w' = P.latchSetup + P.latchHigh + 1 := by
  unfold startLatch
  split
  · exact ⟨_, _, rfl, by simp only [workLeft]; omega⟩
  · exact ⟨_, _, rfl, rfl⟩

/-- The work left where a frame starts (R138). -/
theorem workLeft_startFrame {P : Params} (s : State) (e : List Event) : ∃ w' e',
    (startFrame P ⟨s, e⟩).seq = .busy w' e' ∧
      workLeft P (startFrame P ⟨s, e⟩) w' = 4 * s.nlen.toNat + P.latchSetup + P.latchHigh + 1 := by
  unfold startFrame
  split
  · rename_i h
    dsimp only at h
    obtain ⟨w', e', h1, h2⟩ := workLeft_startLatch (P := P) s e
    exact ⟨w', e', h1, by rw [h2, h]; omega⟩
  · rename_i k h
    dsimp only at h
    exact ⟨_, _, rfl, by simp only [workLeft, h]; show 4 * k + (4 - 0) + _ + _ + _ = _; omega⟩

/-- One edge of a busy block: the work left goes down by one, the last edge presents the response, and an edge at which the
transport has not finished the byte presented changes nothing. -/
theorem workLeft_edge {P : Params} {s : State} (h : Inv P s) (p : PortsIn) {w : Work} {e : List Event}
    (hs : s.seq = .busy w e) (hr : p.rstN = true) :
    (workLeft P s w = 1 ∧ ∃ e', (clockEdge P p s).seq = .responding ⟨.ok, 0⟩ e') ∨
    (∃ w' e', (clockEdge P p s).seq = .busy w' e' ∧ workLeft P (clockEdge P p s) w' + 1 = workLeft P s w) ∨
    (p.txDone = false ∧ (∃ b, txPresented s = some b) ∧ clockEdge P p s = s) := by
  have hw := h.work hs
  have hce : clockEdge P p s = workEdge P p w ⟨s, e⟩ := by unfold clockEdge; rw [if_pos hr, hs]
  have eta : Run.continue w ⟨s, e⟩ = s := by unfold Run.continue; cases s; cases hs; rfl
  rw [hce]
  cases w with
  | filling job k n v =>
    simp only [workEdge]
    split
    · right; left
      refine ⟨_, _, rfl, ?_⟩
      cases job <;> simp only [workLeft, Run.continue, bufWrite] <;> omega
    · cases job with
      | construct =>
        left
        refine ⟨?_, _, rfl⟩
        simp only [workLeft]; omega
      | frame =>
        right; left
        obtain ⟨w', e', h1, h2⟩ := workLeft_startFrame (P := P) s e
        exact ⟨w', e', h1, by dsimp only at h2 ⊢; rw [h2]; simp only [workLeft]; omega⟩
  | sending k j =>
    simp only [workEdge]
    have hen : s.spiEn = true := h.spiEn_iff.2 hw.1
    cases hd : p.txDone with
    | false =>
      right; right
      refine ⟨rfl, ⟨_, by unfold txPresented; rw [hs]; exact if_pos hen⟩, ?_⟩
      rw [if_neg (by simp)]
      exact eta
    | true =>
      right; left
      rw [if_pos ⟨rfl, hen⟩]
      unfold byteDone
      dsimp only
      split
      · rename_i hj
        refine ⟨_, _, rfl, ?_⟩
        have : (j + 1).val = j.val + 1 := by
          match j, hj with
          | 0, _ => rfl
          | 1, _ => rfl
          | 2, _ => rfl
        simp only [workLeft, this]; omega
      · rename_i hj
        split
        · obtain ⟨w', e', h1, h2⟩ := workLeft_startLatch (P := P) s (e ++ [.byte (wireByte (bufRead s 0) j)])
          refine ⟨w', e', h1, ?_⟩
          simp only [Run.emit]
          rw [h2]; simp only [workLeft]; omega
        · rename_i k
          refine ⟨_, _, rfl, ?_⟩
          simp only [workLeft]
          show 4 * k + (4 - 0) + _ + _ + _ + _ = _
          omega
  | latchSetup t =>
    right; left
    simp only [workEdge]
    obtain ⟨_, h1⟩ := hw
    split
    · exact ⟨_, _, rfl, by simp only [workLeft]; omega⟩
    · exact ⟨_, _, rfl, by simp only [workLeft]; omega⟩
  | latchHigh t =>
    right; left
    simp only [workEdge]
    obtain ⟨_, h1⟩ := hw
    split
    · exact ⟨_, _, rfl, by simp only [workLeft]; omega⟩
    · exact ⟨_, _, rfl, by simp only [workLeft]; omega⟩
  | finishing =>
    left
    exact ⟨rfl, _, rfl⟩

end Sys2Proof.Machine
end

