-- ==== Sys2Proof/Tests/Slice0.lean ====
section
/-! SUPPORT. The model's tests: the well-formedness checks, decoding against words written out in spec/95_test_vectors.md, single
commands against that file's vectors, and a witness for the hypotheses of every statement that has some. -/

namespace Sys2Proof.Tests

open Sys2Proof.Machine

/-! ## Well-formedness: each check refuses an ill-formed term (R54, R55) -/

theorem test_construct_length_checked : Instr.wellFormed (.construct 65536) = false := by decide
theorem test_setpx_index_checked : Instr.wellFormed (.setpx 65536 0 0 0 false) = false := by decide
theorem test_setpx_red_checked : Instr.wellFormed (.setpx 0 (-32769) 0 0 false) = false := by decide
theorem test_setpx_green_checked : Instr.wellFormed (.setpx 0 0 32768 0 false) = false := by decide
theorem test_setpx_blue_checked : Instr.wellFormed (.setpx 0 0 0 40000 true) = false := by decide
theorem test_unsetpx_index_checked : Instr.wellFormed (.unsetpx 65536) = false := by decide
theorem test_allon_red_checked : Instr.wellFormed (.allon 32768 0 0 false) = false := by decide
theorem test_allon_green_checked : Instr.wellFormed (.allon 0 (-32769) 0 false) = false := by decide
theorem test_allon_blue_checked : Instr.wellFormed (.allon 0 0 (-40000) true) = false := by decide
theorem test_getpx_index_checked : Instr.wellFormed (.getpx 65536) = false := by decide

/-! ## Decoding: words of spec/95_test_vectors.md, read by the fields of R51 to R55 -/

theorem test_decode_construct : decode 0x0100FFFF000000000000#80 = .cmd (.construct 65535) := by decide
theorem test_decode_begin : decode 0x02000000000000000000#80 = .cmd .begin := by decide
theorem test_decode_setpx : decode 0x03000001FFFB07D00200#80 = .cmd (.setpx 1 (-5) 2000 512 false) := by decide
theorem test_decode_setpx_gamma : decode 0x0301FFFF800080008000#80 = .cmd (.setpx 65535 (-32768) (-32768) (-32768) true) := by
  decide
theorem test_decode_unsetpx : decode 0x0400FFFF000000000000#80 = .cmd (.unsetpx 65535) := by decide
theorem test_decode_allon : decode 0x050000000200FFFF07D0#80 = .cmd (.allon 512 (-1) 2000 false) := by decide
theorem test_decode_allon_gamma : decode 0x0501000003FF00000000#80 = .cmd (.allon 1023 0 0 true) := by decide
theorem test_decode_alloff : decode 0x06000000000000000000#80 = .cmd .alloff := by decide
theorem test_decode_show : decode 0x07000000000000000000#80 = .cmd .showFrame := by decide
theorem test_decode_getpx : decode 0x08000001000000000000#80 = .cmd (.getpx 1) := by decide
theorem test_decode_destroy : decode 0x09000000000000000000#80 = .cmd .destroy := by decide
theorem test_decode_status : decode 0x0A000000000000000000#80 = .cmd .status := by decide

/-- Vectors E1 to E4: reserved opcodes. -/
theorem test_decode_reserved : [0x00000000000000000000#80, 0x0B000000000000000000#80, 0xFF000000000000000000#80,
    0xFFFFFFFFFFFFFFFFFFFF#80].map decode = List.replicate 4 (.illegal .reservedOpcode) := by decide

/-- Vectors E5 to E11: bits that must be zero. -/
theorem test_decode_must_be_zero : [0x07000000000000000001#80, 0x02010000000000000000#80, 0x03020000000000000000#80,
    0x05000001000000000000#80, 0x01000004000000000001#80, 0x04010001000000000000#80, 0x0A800000000000000000#80].map decode =
      List.replicate 7 (.illegal .mustBeZero) := by decide

/-- The encoder against words of programs P1 and P2. -/
theorem test_encode : encode (.setpx 2 0 0 1023 true) = 0x030100020000000003FF#80 ∧
    encode (.construct 4) = 0x01000004000000000000#80 ∧ encode (.allon 1023 0 0 true) = 0x0501000003FF00000000#80 := by decide

/-! ## The codec: vectors of sections 2.1 to 2.4, with that file's parameters -/

/-- The parameters of spec/95_test_vectors.md: `MAX_N` = 8, the default layout, the stand-in table. -/
def vectorParams : Params where
  maxN := 8
  gamma := gammaRef
  layout := .brg
  spiMode := (false, false)
  spiClkHz := 0
  latchSetup := 0
  latchHigh := 1

/-- Vectors V1 to V9. -/
theorem test_clamp : [-32768, -5, -1, 0, 1023, 1024, 2000, 32767, 512].map clamp10 =
    [0, 0, 0, 0, 1023, 1023, 1023, 1023, 512] := by decide

/-- Samples of section 2.3. -/
theorem test_gamma_reference : [0, 100, 511, 512, 513, 896, 1010, 1022, 1023].map (fun x => gammaRef (BitVec.ofNat 10 x)) =
    [0, 2, 146, 147, 148, 706, 987, 1020, 1023] := by decide +kernel

/-- Vectors V25 to V30 without gamma. -/
theorem test_encode_color : encodeColor vectorParams 1 2 3 false = 0x00300402 ∧
    encodeColor vectorParams (-5) 2000 512 false = 0x200003FF ∧
    encodeColor vectorParams (-32768) 32767 1024 false = 0x3FF003FF ∧
    encodeColor vectorParams 1000 1 (-1) false = 0x000FA001 ∧
    encodeColor vectorParams 1024 1023 0 false = 0x000FFFFF := by decide

/-- Vectors V26, V27 and V32 with gamma. -/
theorem test_encode_color_gamma : encodeColor vectorParams (-5) 2000 512 true = 0x093003FF ∧
    encodeColor vectorParams 512 512 512 true = 0x09324C93 ∧
    encodeColor vectorParams 768 384 256 true = 0x01572842 := by decide +kernel

/-- Vectors V33 to V35. -/
theorem test_decode_packet : decodePacket .brg 0x200003FF = .pwm 0 1023 512 false ∧
    decodePacket .rgb 0x3FFFFFFF = .pwm 1023 1023 1023 false ∧ decodePacket .gbr 0 = .pwm 0 0 0 false := by decide

/-! ## Single commands, from the words and the results of sections 4 to 7 -/

/-- A CONSTRUCTED block with the given buffer. -/
def constructed (packets : List Packet) : State :=
  { State.reset with
    life := .constructed, nlen := BitVec.ofNat 16 packets.length, buf := (List.range packets.length).zip packets }

/-- The same block in READY. -/
def ready (packets : List Packet) : State :=
  { constructed packets with life := .ready, latchOe := true, spiEn := true }

/-- A DESTROYED block. -/
def destroyed : State := { State.reset with life := .destroyed, err := 4 }

/-- Vector X1. -/
theorem test_construct : transact vectorParams 0x01000008000000000000#80 State.reset =
    ⟨constructed (List.replicate 8 0), ⟨.ok, 0⟩, []⟩ := by decide

/-- Vector X3. -/
theorem test_construct_too_long : transact vectorParams 0x01000009000000000000#80 State.reset =
    ⟨{ State.reset with err := 4 }, ⟨.eAlloc, 0⟩, []⟩ := by decide

/-- Vector X7. -/
theorem test_begin : transact vectorParams 0x02000000000000000000#80 (constructed [0, 5]) =
    ⟨ready [0, 5], ⟨.ok, 0⟩, [.latchDrive true, .spiEnable true]⟩ := by decide

/-- Vector X13. -/
theorem test_begin_destroyed : transact vectorParams 0x02000000000000000000#80 destroyed =
    ⟨destroyed, ⟨.eLifecycle, 0⟩, []⟩ := by decide

/-- Vector P-2. -/
theorem test_setpx_gamma : transact vectorParams 0x03010001020002000200#80 (ready [0, 0]) =
    ⟨ready [0, 0x09324C93], ⟨.ok, 0⟩, []⟩ := by decide +kernel

/-- Vector P-9. -/
theorem test_setpx : transact vectorParams 0x03000001FFFB07D00200#80 (ready [0, 0]) =
    ⟨ready [0, 0x200003FF], ⟨.ok, 0⟩, []⟩ := by decide

/-- Vector X6. -/
theorem test_unsetpx : transact vectorParams 0x04000001000000000000#80 (constructed [7, 0x09324C93]) =
    ⟨constructed [7, 0], ⟨.ok, 0⟩, []⟩ := by decide +kernel

/-- Vector P-5. -/
theorem test_unsetpx_index : transact vectorParams 0x0400FFFF000000000000#80 (ready [0, 0]) =
    ⟨{ ready [0, 0] with err := 3 }, ⟨.eIndex, 0⟩, []⟩ := by decide

/-- Vector P-3. -/
theorem test_getpx : transact vectorParams 0x08000001000000000000#80 (ready [0, 0x09324C93]) =
    ⟨ready [0, 0x09324C93], ⟨.ok, 0x09324C93⟩, []⟩ := by decide

/-- Vector P-6. -/
theorem test_getpx_index : (transact vectorParams 0x08000002000000000000#80 (ready [0, 0])).rsp = ⟨.eIndex, 0⟩ := by decide

/-- Vector F4. -/
theorem test_allon : transact vectorParams 0x050000000200FFFF07D0#80 (ready [1, 2]) =
    ⟨ready [0x3FF80000, 0x3FF80000], ⟨.ok, 0⟩,
      [.byte 0x3F, .byte 0xF8, .byte 0, .byte 0, .byte 0x3F, .byte 0xF8, .byte 0, .byte 0, .latch true, .latch false]⟩ := by decide

/-- Vector F7. -/
theorem test_allon_constructed : transact vectorParams 0x05000000000100010001#80 (constructed [1, 2]) =
    ⟨{ constructed [1, 2] with err := 2 }, ⟨.eLifecycle, 0⟩, []⟩ := by decide

/-- Vector F3. -/
theorem test_alloff : transact vectorParams 0x06000000000000000000#80 (ready [1, 2]) =
    ⟨ready [0, 0], ⟨.ok, 0⟩, List.replicate 8 (.byte 0) ++ [.latch true, .latch false]⟩ := by decide

/-- Vector F2. -/
theorem test_show : transact vectorParams 0x07000000000000000000#80 (ready [0x000FFC00, 0x200003FF, 0x3FF00000]) =
    ⟨ready [0x000FFC00, 0x200003FF, 0x3FF00000], ⟨.ok, 0⟩,
      [.byte 0x3F, .byte 0xF0, .byte 0, .byte 0, .byte 0x20, .byte 0, .byte 0x03, .byte 0xFF, .byte 0, .byte 0x0F, .byte 0xFC,
        .byte 0, .latch true, .latch false]⟩ := by decide

/-- Vector F8. -/
theorem test_show_empty : (transact vectorParams 0x07000000000000000000#80 State.reset).rsp = ⟨.eLifecycle, 0⟩ := by decide

/-- Vector X11 (the buffer is unspecified after it). -/
theorem test_destroy : transact vectorParams 0x09000000000000000000#80 (ready [1, 2]) =
    ⟨{ State.reset with life := .destroyed, freeIx := 1 }, ⟨.ok, 0⟩, [.latchDrive false, .spiEnable false]⟩ := by decide

/-- Vector X12. -/
theorem test_destroy_destroyed : transact vectorParams 0x09000000000000000000#80 destroyed =
    ⟨destroyed, ⟨.eLifecycle, 0⟩, []⟩ := by decide

/-- Vector X16. -/
theorem test_status_ready : transact vectorParams 0x0A000000000000000000#80 (ready [1, 2, 3, 4]) =
    ⟨ready [1, 2, 3, 4], ⟨.ok, 0x00040016⟩, []⟩ := by decide

/-- Vector X18. -/
theorem test_status_destroyed : transact vectorParams 0x0A000000000000000000#80 destroyed =
    ⟨destroyed, ⟨.ok, 0x00000403⟩, []⟩ := by decide

/-- Vectors G1 and G5: an illegal word comes before the lifecycle check, and the first error is kept. -/
theorem test_illegal : transact vectorParams 0x03020000000000000000#80 State.reset =
      ⟨{ State.reset with err := 1 }, ⟨.eIllegal, 0⟩, []⟩ ∧
    transact vectorParams 0x03020000000000000000#80 { State.reset with err := 2 } =
      ⟨{ State.reset with err := 2 }, ⟨.eIllegal, 0⟩, []⟩ := by decide

/-- `step` runs the table's word of STATUS as the first command after reset (X15). -/
theorem test_step_after_reset : step (State.reset.withFetchWord 80 0x0A000000000000000000) =
    .next { State.reset with trace := [.response ⟨.ok, 0⟩ []] } := rfl

/-- With no input the block waits (R124). -/
theorem test_step_waits : step (ready [1]) = .next (ready [1]) := rfl

/-! ## Clock edges and reset -/

/-- Quiet input ports: no reset, no command, no response taken, no byte completed. -/
def quiet : PortsIn := ⟨true, false, 0, false, false⟩

/-- Vector R-3. -/
theorem test_reset_ready : clockEdge vectorParams { quiet with rstN := false } (ready [1, 2]) =
    { State.reset with freeIx := 1, trace := [.reset [] false [.latchDrive false, .spiEnable false]] } := by decide

/-- Vector R-4: reset in the latch-high phase. -/
theorem test_reset_in_pulse : clockEdge vectorParams { quiet with rstN := false }
      { ready [1] with latchQ := true, seq := .busy (.latchHigh 1) [.byte 0, .latch true] } =
    { State.reset with
      freeIx := 1
      trace := [.reset [.byte 0, .latch true] false [.latchDrive false, .latch false, .spiEnable false]] } := by decide

/-- A frame starts with the highest index, byte 0, and the byte is presented (R105). -/
theorem test_frame_starts : (clockEdge vectorParams { quiet with cmdValid := true, cmdWord := 0x07000000000000000000#80 }
      (ready [1, 0x3FF00000])).seq = .busy (.sending 1 0) [] ∧
    txPresented { ready [1, 0x3FF00000] with seq := .busy (.sending 1 0) [] } = some 0x3F := by decide

/-- The chain of vector F1's frame, one module, which held and displayed other packets (R44). -/
theorem test_chain : (Chain.events 1 ⟨[7], [9], false, 0⟩
    (transact vectorParams 0x07000000000000000000#80 (ready [0x3FFFFFFF])).evs).display = [0x3FFFFFFF] := by decide

/-- The same frame in a chain of two modules: no placement is known (R135). -/
theorem test_chain_of_other_length : (Chain.events 1 ⟨[7, 8], [9, 9], false, 0⟩
    (transact vectorParams 0x07000000000000000000#80 (ready [0x3FFFFFFF])).evs).display =
      [Config.unknownRegister 3 0, Config.unknownRegister 3 1] := rfl

/-- A byte cut short by reset leaves unknown shift registers and the display as it was (R128(b), R136). -/
theorem test_chain_cut_byte : Chain.observe 1 ⟨[7], [9], false, 0⟩ (.reset [.byte 5] true [.latchDrive false, .spiEnable false]) =
    ⟨[Config.unknownRegister 0 0], [9], false, 1⟩ := rfl

/-! ## The assembler: lines of program P2, and vector P-8 -/

theorem test_assemble : assembleLine "SETPX 1, -5, 2000, 512".toList = some 0x03000001FFFB07D00200#80 ∧
    assembleLine "SETPX.G 2, 0, 0, 1023".toList = some 0x030100020000000003FF#80 ∧
    assembleLine "SHOW".toList = some 0x07000000000000000000#80 := by decide +kernel

/-- The lines of R64 as they are written. -/
theorem test_print_line : printLine false (.setpx 1 (-5) 2000 512 false) = "SETPX 1, -5, 2000, 512".toList ∧
    printLine true (.allon 1023 0 (-255) true) = "ALLON.G 0x3ff, 0x0, -0xff".toList ∧
    printLine false .showFrame = "SHOW".toList := by decide +kernel

theorem test_assemble_refuses : assembleLine "SETPX 0, 40000, 0, 0".toList = none ∧ assembleLine "SHOW.G".toList = none := by
  decide +kernel

/-! ## Witnesses: a state and operands that meet the hypotheses of each statement together -/

/-- A READY block with one black pixel meets the invariant under any valid parameters. -/
theorem ready_one_inv {P : Params} (hP : 1 ≤ P.maxN) : Inv P (ready [0]) where
  live_iff := by simp [ready, constructed, Life.live]; exact hP
  no_instance := by simp [ready, Life.live]
  latchOe_iff := by simp [ready]
  spiEn_iff := by simp [ready]
  latchQ_iff := by simp [ready, constructed, State.reset, Sequencer.inPulse]
  err_le := by decide
  buf_wf := by decide
  buf_bound := by
    intro i p h
    cases i with
    | zero => exact hP
    | succ i => cases h
  packets := by
    intro _ i hi
    have hi : i < 1 := hi
    obtain rfl : i = 0 := by omega
    exact ⟨0, rfl, zero_built P⟩
  seq_ok := trivial

/-- The same block while it sends a byte of that pixel. -/
def sending (j : Fin 4) : State := { ready [0] with seq := .busy (.sending 0 j) [] }

theorem sending_inv {P : Params} (hP : 1 ≤ P.maxN) (j : Fin 4) : Inv P (sending j) := by
  have h := (ready_one_inv hP).busy _ (ready_one_inv hP).bufOk (.sending 0 j) [] false rfl
    ⟨rfl, by show 0 < (ready [0]).nlen.toNat; decide⟩
  exact h

/-- Parameters with the identity table. -/
def plainParams : Params := { vectorParams with gamma := fun x => x }

theorem plainParams_valid : plainParams.Valid where
  maxN_pos := by decide
  maxN_le := by decide
  gamma_mono := fun _ _ h => h
  gamma_zero := rfl
  gamma_last := rfl
  latchHigh_pos := by decide

theorem witness_EveryStepKeepsTheInvariant : ∃ t, Inv Config.params (ready [0]) ∧ step (ready [0]) = .next t :=
  ⟨_, ready_one_inv config_maxN.1, rfl⟩

/-- A block at reset to which a word is presented. -/
def presented (w : Word) : State := { State.reset with host := [.command w] }

theorem witness_StepRunsTheDecodedCommand : (presented 0x0100FFFF000000000000#80).seq = .idle ∧
    (presented 0x0100FFFF000000000000#80).host = .command 0x0100FFFF000000000000#80 :: [] ∧
    decode 0x0100FFFF000000000000#80 = .cmd (.construct 65535) := by decide

theorem witness_PlacedWordRunsNext : (ready [0]).seq = .idle ∧
    decodeTableWord 80 0x0301FFFF800080008000 = some (.setpx 65535 (-32768) (-32768) (-32768) true) := by decide

/-- A witness for each clause, the last two being the idle block and the busy one with nothing presented. -/
theorem witness_EveryStepTakesTheNextInput : ((presented 0#80).seq = .idle ∧ (presented 0#80).host = .command 0#80 :: []) ∧
    ({ State.reset with host := [.edge quiet, .command 0#80] } : State).host = .edge quiet :: [.command 0#80] ∧
    (({ sending 0 with host := [.command 0#80] } : State).seq ≠ .idle ∧
      ({ sending 0 with host := [.command 0#80] } : State).host = .command 0#80 :: []) ∧
    ((ready [0]).host = [] ∧ (ready [0]).seq = .idle) ∧ (sending 0).host = [] := by decide

theorem witness_ReservedWordsAreIllegal : opField 0x00000000000000000001#80 = 0 ∧
    0x0B ≤ (opField 0x0B000000000000000000#80).toNat ∧
    opField 0x07000000000000000001#80 = opField (matchWord .showFrame) ∧
    0x07000000000000000001#80 &&& maskWord .showFrame ≠ matchWord .showFrame ∧
    decode 0x07000000000000000001#80 = .illegal .mustBeZero := by decide

theorem witness_IllegalWordAnswersEIllegal : (presented 0x0B000000000000000000#80).seq = .idle ∧
    (presented 0x0B000000000000000000#80).host = .command 0x0B000000000000000000#80 :: [] ∧
    decode 0x0B000000000000000000#80 = .illegal .reservedOpcode := by decide

theorem witness_MaskAndMatchSpellTheCommand : 0x0100FFFF000000000000#80 &&& maskWord (.construct 0) = matchWord (.construct 0) ∧
    0x0100FFFF000000000000#80 &&& maskWord (.construct 1) = matchWord (.construct 1) := by decide

theorem witness_DecodeOfEncodeIsTheCommand : (Instr.setpx 65535 (-32768) 32767 0 true).wellFormed = true ∧
    (Instr.construct 65535).wellFormed = true ∧ (Instr.allon (-32768) 32767 0 false).wellFormed = true := by decide

theorem witness_EncodeOfDecodeIsTheWord : decode 0x0301FFFF800080008000#80 =
    .cmd (.setpx 65535 (-32768) (-32768) (-32768) true) := by decide

theorem witness_ClampSaturates : ((-1 : Int) < 0) ∧ ((1023 : Int) < 1024) ∧ ((0 : Int) ≤ 0 ∧ (0 : Int) ≤ 1023) ∧
    ((0 : Int) ≤ 1023 ∧ (1023 : Int) ≤ 1023) := by decide

theorem witness_GammaTableAllowsEveryValidTable : ∃ f : U10 → U10, f 0 = 0 ∧ f 1023 = 1023 ∧
    ∀ x y : U10, x.toNat ≤ y.toNat → (f x).toNat ≤ (f y).toNat := ⟨fun x => x, rfl, rfl, fun _ _ h => h⟩

theorem witness_ChannelIsClampedThenLookedUp : plainParams.Valid ∧ ((0 : Int) ≤ 0 ∨ (1023 : Int) ≤ 0) ∧
    ((1023 : Int) ≤ 0 ∨ (1023 : Int) ≤ 1023) := ⟨plainParams_valid, by decide, by decide⟩

theorem witness_PackedPacketDecodesBack : packPwm .brg 1 2 3 = packPwm .brg 1 2 3 := rfl

theorem witness_StandInTableIsTheCurve : (1 : U10).toNat ≤ (1023 : U10).toNat := by decide

/-- The encoding clauses of the statements of R84 to R87, R91 to R93 and R99 to R101. -/
theorem witness_encodings :
    (opField 0x0100FFFF000000000000#80 = 0x01 ∧ (0x0100FFFF000000000000#80).extractLsb' 64 8 = 0 ∧
      (0x0100FFFF000000000000#80).extractLsb' 0 48 = 0) ∧
    (opField 0x02000000000000000000#80 = 0x02 ∧ (0x02000000000000000000#80).extractLsb' 0 72 = 0) ∧
    (opField 0x0301FFFF800080008000#80 = 0x03 ∧ (0x0301FFFF800080008000#80).extractLsb' 65 7 = 0) ∧
    (opField 0x0400FFFF000000000000#80 = 0x04 ∧ (0x0400FFFF000000000000#80).extractLsb' 64 8 = 0 ∧
      (0x0400FFFF000000000000#80).extractLsb' 0 48 = 0) ∧
    (opField 0x0501000003FF00000000#80 = 0x05 ∧ (0x0501000003FF00000000#80).extractLsb' 65 7 = 0 ∧
      (0x0501000003FF00000000#80).extractLsb' 48 16 = 0) ∧
    (opField 0x06000000000000000000#80 = 0x06 ∧ (0x06000000000000000000#80).extractLsb' 0 72 = 0) ∧
    (opField 0x07000000000000000000#80 = 0x07 ∧ (0x07000000000000000000#80).extractLsb' 0 72 = 0) ∧
    (opField 0x08000001000000000000#80 = 0x08 ∧ (0x08000001000000000000#80).extractLsb' 64 8 = 0 ∧
      (0x08000001000000000000#80).extractLsb' 0 48 = 0) ∧
    (opField 0x09000000000000000000#80 = 0x09 ∧ (0x09000000000000000000#80).extractLsb' 0 72 = 0) ∧
    (opField 0x0A000000000000000000#80 = 0x0A ∧ (0x0A000000000000000000#80).extractLsb' 0 72 = 0) := by decide

theorem witness_ConstructMakesAZeroedInstance : (State.reset.life = .empty ∨ State.reset.life = .destroyed) ∧ 1 ≤ 1 ∧
    1 ≤ Config.params.maxN ∧ (destroyed.life = .empty ∨ destroyed.life = .destroyed) ∧ 1 ≤ Config.params.maxN ∧
    Config.params.maxN ≤ Config.params.maxN ∧ ((ready [0]).life = .constructed ∨ (ready [0]).life = .ready) ∧
    (0 = 0 ∨ Config.params.maxN < 0) ∧ (Config.params.maxN + 1 = 0 ∨ Config.params.maxN < Config.params.maxN + 1) :=
  ⟨.inl rfl, Nat.le_refl 1, config_maxN.1, .inr rfl, config_maxN.1, Nat.le_refl _, .inr rfl, .inl rfl,
    .inr (Nat.lt_succ_self _)⟩

theorem witness_BeginDrivesTheLatchAndTheTransport : (constructed [0]).life = .constructed ∧
    (constructed [0]).levels = ⟨false, false, false⟩ ∧ (ready [0]).life ≠ .constructed := by decide

theorem witness_DestroyEndsTheInstance : ((ready [0]).life = .constructed ∨ (ready [0]).life = .ready) ∧
    ((constructed [0]).life = .constructed ∨ (constructed [0]).life = .ready) ∧
    (destroyed.life = .empty ∨ destroyed.life = .destroyed) := by decide

theorem witness_LifecycleTableIsEnforced : admits .alloff (constructed [0]).life = false ∧
    admits .alloff (ready [0]).life = true := by decide

theorem witness_ChainLengthIsFixed : decode 0x0A000000000000000000#80 ≠ .cmd .destroy ∧ (ready [0]).life.live = true ∧
    ∀ n, decode 0x0A000000000000000000#80 ≠ .cmd (.construct n) := by
  rw [test_decode_status]
  exact ⟨by decide, by decide, fun n h => nomatch h⟩

theorem witness_SetpxStoresTheEncodedColour : (destroyed.life = .empty ∨ destroyed.life = .destroyed) ∧
    (ready [0]).nlen.toNat ≤ 1 ∧ ((ready [0]).life = .constructed ∨ (ready [0]).life = .ready) ∧
    0 < (ready [0]).nlen.toNat ∧ ((constructed [0, 0]).life = .constructed ∨ (constructed [0, 0]).life = .ready) ∧
    1 < (constructed [0, 0]).nlen.toNat := by decide

theorem witness_UnsetpxStoresZero : (destroyed.life = .empty ∨ destroyed.life = .destroyed) ∧
    (ready [0]).nlen.toNat ≤ 1 ∧ ((ready [0]).life = .constructed ∨ (ready [0]).life = .ready) ∧
    0 < (ready [0]).nlen.toNat := by decide

theorem witness_GetpxAnswersTheStoredPacket : (destroyed.life = .empty ∨ destroyed.life = .destroyed) ∧
    (ready [0]).nlen.toNat ≤ 1 ∧ ((ready [0]).life = .constructed ∨ (ready [0]).life = .ready) ∧
    0 < (ready [0]).nlen.toNat := by decide

theorem witness_PixelCommandsCheckLifeThenIndex : (Instr.setpx 1 1 1 1 true = .unsetpx 1 ∨ Instr.setpx 1 1 1 1 true = .getpx 1 ∨
      ∃ r g b gc, Instr.setpx 1 1 1 1 true = .setpx 1 r g b gc) ∧
    (State.reset.life = .empty ∨ State.reset.life = .destroyed) ∧
    ((ready [0]).life = .constructed ∨ (ready [0]).life = .ready) ∧ (ready [0]).nlen.toNat ≤ 1 :=
  ⟨.inr (.inr ⟨1, 1, 1, true, rfl⟩), by decide, by decide, by decide⟩

theorem witness_PixelCommandsAreSilent : Instr.unsetpx 0 = .unsetpx 0 ∨ Instr.unsetpx 0 = .getpx 0 ∨
    ∃ r g b gc, Instr.unsetpx 0 = .setpx 0 r g b gc := .inl rfl

theorem witness_GetpxAfterSetpxAnswersTheColour : ((ready [0, 0]).life = .constructed ∨ (ready [0, 0]).life = .ready) ∧
    1 < (ready [0, 0]).nlen.toNat ∧
    ∀ c ∈ [Instr.unsetpx 0, Instr.setpx 0 1 2 3 true],
      (∃ j, j ≠ 1 ∧ c = .unsetpx j) ∨ ∃ j r' g' b' gc', j ≠ 1 ∧ c = .setpx j r' g' b' gc' := by
  refine ⟨by decide, by decide, fun c hc => ?_⟩
  simp only [List.mem_cons, List.not_mem_nil, or_false] at hc
  rcases hc with rfl | rfl
  · exact .inl ⟨0, by decide, rfl⟩
  · exact .inr ⟨0, 1, 2, 3, true, by decide, rfl⟩

theorem witness_FrameBytesGoHighestIndexFirst : (Instr.showFrame = .showFrame ∨ Instr.showFrame = .alloff ∨
      ∃ r g b gc, Instr.showFrame = .allon r g b gc) ∧
    (ready [0, 0]).life = .ready ∧ (ready [0, 0]).latchQ = false ∧ 1 < (ready [0, 0]).nlen.toNat :=
  ⟨.inl rfl, rfl, rfl, by decide⟩

theorem witness_ShowSendsTheBufferAndLatches : (constructed [0]).life ≠ .ready ∧
    (ready [0]).life = .ready ∧ (ready [0]).latchQ = false := by decide

theorem witness_AllonFillsAndSends : (constructed [0]).life ≠ .ready ∧
    (ready [0]).life = .ready ∧ (ready [0]).latchQ = false ∧
    0 < (ready [0]).nlen.toNat ∧
    (ready [0]).nlen.toNat ≤ 1 := by decide

theorem witness_AlloffClearsAndSends : (constructed [0]).life ≠ .ready ∧
    (ready [0]).life = .ready ∧ (ready [0]).latchQ = false ∧
    0 < (ready [0]).nlen.toNat ∧
    (ready [0]).nlen.toNat ≤ 1 := by decide

theorem witness_FrameCommandsNeedReady : (Instr.alloff = .showFrame ∨ Instr.alloff = .alloff ∨
      ∃ r g b gc, Instr.alloff = .allon r g b gc) ∧ (constructed [0]).life ≠ .ready ∧
    Inv plainParams (ready [0]) ∧ (ready [0]).life = .ready :=
  ⟨.inr (.inl rfl), by decide, ready_one_inv plainParams_valid.maxN_pos, rfl⟩

theorem witness_AllonEqualsSettingEveryPixelThenShow : (ready [0, 0]).life = .ready ∧ 1 < (ready [0, 0]).nlen.toNat := by
  decide

theorem witness_ErrorsHaveNoOtherEffect : (transact vectorParams 0x08000002000000000000#80 (ready [0])).rsp.status ≠ .ok ∧
    (transact vectorParams 0x08000000000000000000#80 (ready [0])).rsp.status = .ok := by decide

theorem witness_ErrIsTheFirstErrorSinceReset :
    ({ State.reset with err := 2, trace := [.response ⟨.eLifecycle, 0⟩ []] } : State).err =
      errorOfTrace [.response ⟨.eLifecycle, 0⟩ []] ∧ ({ quiet with rstN := false } : PortsIn).rstN = false ∧
    decode 0x0A000000000000000000#80 = .cmd .status := by decide

theorem witness_ClockEdgesRefineTransactions : ∀ p ∈ [quiet, { quiet with cmdValid := true }, { quiet with rspReady := true }],
    p.rstN = true := by decide

theorem witness_ResetEdgeGivesTheResetState : ({ quiet with rstN := false } : PortsIn).rstN = false ∧
    (ready [0]).seq = .idle ∧
    ({ ready [0] with seq := .responding ⟨.ok, 0⟩ [.byte 0] } : State).seq = .responding ⟨.ok, 0⟩ [.byte 0] := by decide

theorem witness_ResetAbandonsTheCommand : (⟨false, false, 0, false, true⟩ : PortsIn).rstN = false ∧
    (sending 1).seq = .busy (.sending 0 1) [] ∧ txPresented (sending 1) = some 0 ∧
    ({ ready [0] with seq := .busy .finishing [] } : State).seq = .busy .finishing [] ∧
    txPresented { ready [0] with seq := .busy .finishing [] } = none := by decide

theorem witness_BusyBlockAcceptsNothing : (sending 0).seq ≠ .idle := by decide

theorem witness_ResponseIsHeldUntilTaken : quiet.rstN = true ∧ quiet.rspReady = false ∧
    ({ quiet with rspReady := true } : PortsIn).rspReady = true ∧
    ({ ready [0] with seq := .responding ⟨.ok, 0⟩ [] } : State).seq = .responding ⟨.ok, 0⟩ [] := by decide

theorem witness_LatchPulseHasItsTiming : 1 ≤ vectorParams.latchHigh ∧ (sending 3).seq = .busy (.sending 0 3) [] ∧
    (sending 3).spiEn = true ∧ (sending 3).latchQ = false ∧ ({ quiet with txDone := true } : PortsIn).rstN = true ∧
    ({ quiet with txDone := true } : PortsIn).txDone = true ∧ (∀ q ∈ [quiet, quiet], q.rstN = true) ∧
    [quiet, quiet].length = vectorParams.latchSetup + vectorParams.latchHigh + 1 ∧
    [quiet].length = vectorParams.latchSetup + vectorParams.latchHigh ∧
    vectorParams.latchSetup ≤ ([] : List PortsIn).length ∧
    ([] : List PortsIn).length < vectorParams.latchSetup + vectorParams.latchHigh ∧
    ([] : List PortsIn).length < ({ vectorParams with latchSetup := 1 } : Params).latchSetup := by decide

theorem witness_BytesGoOutOneByOne :
    ({ ready [0, 0] with seq := .busy (.sending 1 3) [] } : State).seq = .busy (.sending 1 3) [] ∧ (ready [0, 0]).spiEn = true ∧
    quiet.rstN = true ∧ quiet.txDone = false ∧ ({ quiet with txDone := true } : PortsIn).txDone = true ∧
    (2 : Fin 4).val < 3 ∧ (3 : Fin 4).val = 3 ∧ 0 < 1 ∧ (sending 3).seq = .busy (.sending 0 3) [] ∧ (sending 3).spiEn = true ∧
    (sending 3).latchQ = false ∧ vectorParams.latchSetup = 0 ∧ 1 ≤ ({ vectorParams with latchSetup := 1 } : Params).latchSetup := by
  decide

theorem witness_BytesOnlyWhileEnabled : txPresented (sending 0) = some 0 ∧ Inv plainParams (sending 0) :=
  ⟨by decide, sending_inv plainParams_valid.maxN_pos 0⟩

theorem witness_CommandsEndUnderFairness : plainParams.Valid ∧ Inv plainParams (sending 0) ∧
    (sending 0).seq = .busy (.sending 0 0) [] ∧
    ((∀ n, ((fun _ => { quiet with txDone := true } : Nat → PortsIn) n).rstN = true) ∧
      transportFair plainParams (fun _ => { quiet with txDone := true }) (sending 0)) ∧
    (txPresented (sending 0) = some 0 ∧ ∀ p ∈ [quiet, quiet], p.rstN = true ∧ p.txDone = false) ∧
    (∀ p ∈ List.replicate 6 { quiet with txDone := true }, p.rstN = true ∧ p.txDone = true) ∧
    (List.replicate 6 { quiet with txDone := true }).length = workLeft plainParams (sending 0) (.sending 0 0) ∧
    ([] : List PortsIn).length < workLeft plainParams (sending 0) (.sending 0 0) :=
  ⟨plainParams_valid, sending_inv plainParams_valid.maxN_pos 0, rfl, ⟨fun _ => rfl, fun n _ _ => ⟨n, Nat.le_refl n, rfl⟩⟩,
    by decide, by decide, by decide, by decide⟩

theorem witness_FramesTakeAtLeastTheirCycles : plainParams.Valid ∧ Inv plainParams (sending 0) ∧
    (sending 0).seq = .busy (.sending 0 0) [] ∧ 0 + 1 = (sending 0).nlen.toNat ∧
    (∀ p ∈ List.replicate 5 { quiet with txDone := true }, p.rstN = true) ∧
    (List.replicate 5 { quiet with txDone := true }).length ≤
      4 * (sending 0).nlen.toNat + plainParams.latchSetup + plainParams.latchHigh :=
  ⟨plainParams_valid, sending_inv plainParams_valid.maxN_pos 0, rfl, rfl, by decide, by decide⟩

theorem witness_ChainDisplaysTheBuffer : (Instr.showFrame = .showFrame ∨ Instr.showFrame = .alloff ∨
      ∃ r g b gc, Instr.showFrame = .allon r g b gc) ∧
    (ready [0]).life = .ready ∧ (ready [0]).latchQ = false ∧
    (⟨[7], [9], false, 0⟩ : Chain).regs.length = (ready [0]).nlen.toNat ∧
    (⟨[7, 8], [9, 9], false, 0⟩ : Chain).regs.length ≠ (ready [0]).nlen.toNat ∧ 1 ≤ (ready [0]).nlen.toNat :=
  ⟨.inl rfl, rfl, rfl, rfl, by decide, by decide⟩

theorem witness_DisplayChangesOnlyAtALatchPulse : (∀ e ∈ [Event.byte 1, .latch true], e ≠ .latch false) ∧
    (∀ e ∈ [Event.byte 1] ++ [.latchDrive false, .spiEnable false], e ≠ .latch false) ∧
    (Instr.getpx 0 = .unsetpx 0 ∨ Instr.getpx 0 = .getpx 0 ∨ ∃ r g b gc, Instr.getpx 0 = .setpx 0 r g b gc) ∧
    (({ quiet with rstN := false } : PortsIn).rstN = false ∧ (sending 1).seq = .busy (.sending 0 1) [] ∧
      (sending 1).latchQ = false) ∧
    (({ ready [0] with latchQ := true, seq := .busy (.latchHigh 1) [.latch true] } : State).seq =
        .busy (.latchHigh 1) [.latch true] ∧
      ({ ready [0] with latchQ := true, seq := .busy (.latchHigh 1) [.latch true] } : State).latchQ = true) :=
  ⟨by decide, by decide, .inr (.inl rfl), by decide, by decide⟩

theorem witness_AssembledLinesDecodeBack : (Instr.setpx 65535 (-32768) 32767 0 true).wellFormed = true ∧
    assembleLine "GETPX 1".toList = some 0x08000001000000000000#80 := by
  decide +kernel

end Sys2Proof.Tests
end

section
/-! PROOFS. The decoder by its rows: a listed opcode, the must-be-zero bits under the row's mask, the operands (R57 to R61). -/

namespace Sys2Proof
open Sys2Proof.Machine

/-- The opcode of the command's row (R57). -/
def Instr.opcode : Instr → BitVec 8
  | .construct _ => 0x01
  | .begin => 0x02
  | .setpx _ _ _ _ _ => 0x03
  | .unsetpx _ => 0x04
  | .allon _ _ _ _ => 0x05
  | .alloff => 0x06
  | .showFrame => 0x07
  | .getpx _ => 0x08
  | .destroy => 0x09
  | .status => 0x0A

/-- The must-be-zero bits of the command's row are zero in `w` (R57, R61). -/
def rowZeros : Instr → Word → Bool
  | .construct _, w | .unsetpx _, w | .getpx _, w => idxOnly w
  | .begin, w | .alloff, w | .showFrame, w | .destroy, w | .status, w => noOperands w
  | .setpx _ _ _ _ _, w => rsvField w == 0
  | .allon _ _ _ _, w => rsvField w == 0 && idxField w == 0

/-- The command of the same row with the operands that stand in `w` (R57). -/
def rowCommand : Instr → Word → Instr
  | .construct _, w => .construct (idxField w).toNat
  | .begin, _ => .begin
  | .setpx _ _ _ _ _, w =>
    .setpx (idxField w).toNat (redField w).toInt (grnField w).toInt (bluField w).toInt (gcField w)
  | .unsetpx _, w => .unsetpx (idxField w).toNat
  | .allon _ _ _ _, w => .allon (redField w).toInt (grnField w).toInt (bluField w).toInt (gcField w)
  | .alloff, _ => .alloff
  | .showFrame, _ => .showFrame
  | .getpx _, w => .getpx (idxField w).toNat
  | .destroy, _ => .destroy
  | .status, _ => .status

/-- A command of every row. -/
def commandRows : List Instr :=
  [.construct 0, .begin, .setpx 0 0 0 0 false, .unsetpx 0, .allon 0 0 0 false, .alloff, .showFrame, .getpx 0, .destroy,
    .status]

/-- A row's match is its opcode with every other field zero (R58). -/
theorem matchWord_eq_packC80 (i : Instr) : matchWord i = packC80 i.opcode false 0 0 0 0 := by
  cases i <;> simp only [matchWord, Instr.opcode] <;> decide

@[simp] theorem opField_matchWord (i : Instr) : opField (matchWord i) = i.opcode := by
  rw [matchWord_eq_packC80, opField_packC80]

@[simp] theorem opcode_rowCommand (i : Instr) (w : Word) : (rowCommand i w).opcode = i.opcode := by
  cases i <;> rfl

@[simp] theorem whenZero_eq_cmd (ok : Bool) (i j : Instr) : whenZero ok i = .cmd j ↔ ok = true ∧ i = j := by
  cases ok <;> simp [whenZero]

@[simp] theorem whenZero_eq_illegal (ok : Bool) (i : Instr) (why : Illegal) :
    whenZero ok i = .illegal why ↔ ok = false ∧ why = .mustBeZero := by
  cases ok <;> simp [whenZero, eq_comm]

@[simp] theorem toInstr_whenZero (ok : Bool) (i : Instr) : (whenZero ok i).toInstr? = if ok then some i else none := by
  cases ok <;> rfl

/-- A word with a listed opcode is read by that opcode's row (R59). -/
theorem decode_of_listed {w : Word} {i : Instr} (h : opField w = i.opcode) :
    decode w = whenZero (rowZeros i w) (rowCommand i w) := by
  unfold decode
  rw [h]
  cases i <;> rfl

theorem toNat_of_reserved {op : BitVec 8} (h : op = 0 ∨ 0x0B ≤ op.toNat) : op.toNat = 0 ∨ 0x0B ≤ op.toNat :=
  h.imp_left fun h0 => by rw [h0]; rfl

/-- A word with a reserved opcode spells no command (R60). -/
theorem decode_of_reserved {w : Word} (h : opField w = 0 ∨ 0x0B ≤ (opField w).toNat) :
    decode w = .illegal .reservedOpcode := by
  have hn := toNat_of_reserved h
  unfold decode
  split
  case h_11 => rfl
  all_goals omega

/-- Every opcode is listed in a row or reserved (R57, R60). -/
theorem opField_listed_or_reserved (w : Word) :
    (∃ i : Instr, opField w = i.opcode) ∨ opField w = 0 ∨ 0x0B ≤ (opField w).toNat := by
  have all : ∀ op : BitVec 8, op ∈ commandRows.map Instr.opcode ∨ op = 0 ∨ 0x0B ≤ op.toNat := by decide
  refine (all (opField w)).imp_left fun h => ?_
  obtain ⟨i, -, hi⟩ := List.mem_map.1 h
  exact ⟨i, hi.symm⟩

/-- A word meets a row under a mask that covers the opcode and `rsv`, field by field. -/
theorem and_eq_packC80_iff {w m : Word} {op : BitVec 8} (hop : opField m = BitVec.allOnes 8)
    (hrsv : rsvField m = BitVec.allOnes 7) : w &&& m = packC80 op false 0 0 0 0 ↔
      opField w = op ∧ rsvField w = 0 ∧ (gcField w && gcField m) = false ∧ idxField w &&& idxField m = 0 ∧
        redField w &&& redField m = 0 ∧ grnField w &&& grnField m = 0 ∧ bluField w &&& bluField m = 0 := by
  have hopw : opField (w &&& m) = opField w := by rw [opField_and, hop, BitVec.and_allOnes]
  have hrsvw : rsvField (w &&& m) = rsvField w := by rw [rsvField_and, hrsv, BitVec.and_allOnes]
  rw [← hopw, ← hrsvw, ← gcField_and, ← idxField_and, ← redField_and, ← grnField_and, ← bluField_and]
  constructor
  · intro h
    simp only [h, opField_packC80, rsvField_packC80, gcField_packC80, idxField_packC80, redField_packC80,
      grnField_packC80, bluField_packC80, and_self]
  · rintro ⟨h1, h0, h2, h3, h4, h5, h6⟩
    refine word_ext ?_ ?_ ?_ ?_ ?_ ?_ ?_
    · rw [h0, rsvField_packC80]
    · rw [h1, opField_packC80]
    · rw [h2, gcField_packC80]
    · rw [h3, idxField_packC80]
    · rw [h4, redField_packC80]
    · rw [h5, grnField_packC80]
    · rw [h6, bluField_packC80]

/-- The mask of CONSTRUCT, UNSETPX and GETPX covers `gc` and the channels (R58). -/
theorem idxMask_fields : gcField 0xFFFF0000FFFFFFFFFFFF#80 = true ∧
    redField 0xFFFF0000FFFFFFFFFFFF#80 = BitVec.allOnes 16 ∧ grnField 0xFFFF0000FFFFFFFFFFFF#80 = BitVec.allOnes 16 ∧
    bluField 0xFFFF0000FFFFFFFFFFFF#80 = BitVec.allOnes 16 := by decide

/-- A word meets the row of a command whose only operand is `idx`. -/
theorem and_idxMask_iff (w : Word) (op : BitVec 8) :
    w &&& 0xFFFF0000FFFFFFFFFFFF#80 = packC80 op false 0 0 0 0 ↔ opField w = op ∧ idxOnly w = true := by
  obtain ⟨hgc, hred, hgrn, hblu⟩ := idxMask_fields
  rw [and_eq_packC80_iff (by decide) (by decide), hgc, hred, hgrn, hblu, Laws.MaskedWord.idx_mask]
  simp [idxOnly, noChannels, and_assoc, -BitVec.reduceAllOnes]

/-- The mask of a row without operands covers every field (R58). -/
theorem fullMask_fields : gcField 0xFFFFFFFFFFFFFFFFFFFF#80 = true ∧
    idxField 0xFFFFFFFFFFFFFFFFFFFF#80 = BitVec.allOnes 16 ∧ redField 0xFFFFFFFFFFFFFFFFFFFF#80 = BitVec.allOnes 16 ∧
    grnField 0xFFFFFFFFFFFFFFFFFFFF#80 = BitVec.allOnes 16 ∧ bluField 0xFFFFFFFFFFFFFFFFFFFF#80 = BitVec.allOnes 16 := by
  decide

/-- A word meets the row of a command without operands. -/
theorem and_fullMask_iff (w : Word) (op : BitVec 8) :
    w &&& 0xFFFFFFFFFFFFFFFFFFFF#80 = packC80 op false 0 0 0 0 ↔ opField w = op ∧ noOperands w = true := by
  obtain ⟨hgc, hidx, hred, hgrn, hblu⟩ := fullMask_fields
  rw [and_eq_packC80_iff (by decide) (by decide), hgc, hidx, hred, hgrn, hblu]
  simp only [noOperands, idxOnly, noChannels, BitVec.and_allOnes, Bool.and_true, Bool.and_eq_true,
    Bool.not_eq_true', beq_iff_eq]
  tauto

/-- R58's mask and match test the opcode and the must-be-zero bits. -/
theorem and_maskWord_iff (w : Word) (i : Instr) :
    w &&& maskWord i = matchWord i ↔ opField w = i.opcode ∧ rowZeros i w = true := by
  rw [matchWord_eq_packC80]
  cases i with
  | construct | unsetpx | getpx => exact and_idxMask_iff w _
  | begin | alloff | showFrame | destroy | status => exact and_fullMask_iff w _
  | setpx =>
    obtain ⟨hgc, hidx, hred, hgrn, hblu⟩ := Laws.MaskedWord.setpx_mask
    rw [maskWord, and_eq_packC80_iff (by decide) (by decide), hgc, hidx, hred, hgrn, hblu]
    simp [rowZeros]
  | allon =>
    obtain ⟨hgc, hred, hgrn, hblu⟩ := Laws.MaskedWord.allon_mask
    have hidx : idxField 0xFFFEFFFF000000000000#80 = BitVec.allOnes 16 := by decide
    rw [maskWord, and_eq_packC80_iff (by decide) (by decide), hgc, hidx, hred, hgrn, hblu]
    simp [rowZeros, -BitVec.reduceAllOnes]

/-- A decoded command is of the row that the word's opcode names. -/
theorem opField_of_decode {w : Word} {i : Instr} (h : decode w = .cmd i) : opField w = i.opcode := by
  rcases opField_listed_or_reserved w with ⟨j, hj⟩ | hres
  · rw [decode_of_listed hj, whenZero_eq_cmd] at h
    rw [hj, ← opcode_rowCommand j w, h.2]
  · rw [decode_of_reserved hres] at h
    cases h

/-- Under a listed opcode a word is illegal exactly when it misses its row's match (R61). -/
theorem decode_eq_illegal_iff {w : Word} {i : Instr} (h : opField w = i.opcode) (why : Illegal) :
    decode w = .illegal why ↔ why = .mustBeZero ∧ w &&& maskWord i ≠ matchWord i := by
  rw [decode_of_listed h, whenZero_eq_illegal, and_comm, ne_eq, and_maskWord_iff]
  simp [h]

theorem matchWord_eq_iff (i j : Instr) : matchWord i = matchWord j ↔ i.opcode = j.opcode := by
  constructor
  · intro h
    rw [← opField_matchWord i, h, opField_matchWord]
  · intro h
    rw [matchWord_eq_packC80, h, ← matchWord_eq_packC80]

/-- An illegal word is answered with `E_ILLEGAL`; only the sticky error field changes (R109, R114). -/
theorem transact_of_illegal {w : Word} {why : Illegal} (h : decode w = .illegal why) (P : Params) (s : State) :
    transact P w s = raise .eIllegal s := by
  rw [transact, h]; rfl

theorem transact_of_cmd {w : Word} {i : Instr} (h : decode w = .cmd i) (P : Params) (s : State) :
    transact P w s = perform P i s := by
  rw [transact, h]

/-- Settles O7: an opcode is listed or reserved, and under a listed one R58's mask tells the must-be-zero violations. -/
theorem reservedWordsAreIllegal : Obligations.ReservedWordsAreIllegal := by
  intro w
  refine ⟨⟨fun h => ?_, decode_of_reserved⟩, ⟨fun h => ?_, ?_⟩, fun P s why h => transact_of_illegal h P s⟩
  · rcases opField_listed_or_reserved w with ⟨i, hi⟩ | hres
    · cases ((decode_eq_illegal_iff hi _).1 h).1
    · exact hres
  · rcases opField_listed_or_reserved w with ⟨i, hi⟩ | hres
    · exact ⟨i, hi.trans (opField_matchWord i).symm, ((decode_eq_illegal_iff hi _).1 h).2⟩
    · rw [decode_of_reserved hres] at h
      cases h
  · rintro ⟨i, hi, hmask⟩
    rw [opField_matchWord] at hi
    exact (decode_eq_illegal_iff hi _).2 ⟨rfl, hmask⟩

/-- Settles O10: both sides say that the word has the row's opcode and its must-be-zero bits are zero. -/
theorem maskAndMatchSpellTheCommand : Obligations.MaskAndMatchSpellTheCommand := by
  intro w i
  simp only [and_maskWord_iff, matchWord_eq_iff]
  refine ⟨⟨?_, ?_⟩, fun j hi hj => hi.1.symm.trans hj.1⟩
  · rintro ⟨i', hdec, hrow⟩
    have hop : opField w = i.opcode := (opField_of_decode hdec).trans hrow
    rw [decode_of_listed hop, whenZero_eq_cmd] at hdec
    exact ⟨hop, hdec.1⟩
  · rintro ⟨hop, hzero⟩
    exact ⟨rowCommand i w, by rw [decode_of_listed hop, hzero, whenZero_eq_cmd]; exact ⟨rfl, rfl⟩, opcode_rowCommand i w⟩

/-! The word's bit ranges, as R59's table reads them -/

/-- A bit range is zero exactly when its lower and its upper part are. -/
theorem extractLsb'_eq_zero_iff (w : Word) (a m n : Nat) :
    w.extractLsb' a (m + n) = 0 ↔ w.extractLsb' a n = 0 ∧ w.extractLsb' (a + n) m = 0 := by
  rw [← BitVec.extractLsb'_append_extractLsb'_eq_extractLsb' (start₂ := a + n) rfl]
  constructor
  · intro h
    constructor
    · simpa [BitVec.extractLsb'_append_eq_right] using congrArg (BitVec.extractLsb' 0 n) h
    · simpa [BitVec.extractLsb'_append_eq_left] using congrArg (BitVec.extractLsb' n m) h
  · rintro ⟨hlo, hhi⟩
    rw [hlo, hhi]
    exact BitVec.zero_append_zero

/-- The flags byte is `rsv` and `gc` (R53). -/
theorem flags_eq_zero_iff (w : Word) : w.extractLsb' 64 8 = 0 ↔ rsvField w = 0 ∧ gcField w = false := by
  have hgc : w.extractLsb' 64 1 = 0 ↔ gcField w = false := by
    rw [gcField, BitVec.getLsbD_eq_extractLsb']
    generalize w.extractLsb' 64 1 = b
    revert b
    decide
  rw [extractLsb'_eq_zero_iff w 64 7 1, hgc, and_comm]
  rfl

/-- The channel fields fill `w[47:0]` (R55). -/
theorem channels_eq_zero_iff (w : Word) : w.extractLsb' 0 48 = 0 ↔ noChannels w = true := by
  rw [extractLsb'_eq_zero_iff w 0 32 16, extractLsb'_eq_zero_iff w 16 16 16]
  simp only [noChannels, Bool.and_eq_true, beq_iff_eq]
  exact ⟨fun ⟨hb, hg, hr⟩ => ⟨⟨hr, hg⟩, hb⟩, fun ⟨⟨hr, hg⟩, hb⟩ => ⟨hb, hg, hr⟩⟩

theorem idxOnly_eq_true_iff (w : Word) : idxOnly w = true ↔ w.extractLsb' 64 8 = 0 ∧ w.extractLsb' 0 48 = 0 := by
  rw [flags_eq_zero_iff, channels_eq_zero_iff]
  simp only [idxOnly, Bool.and_eq_true, Bool.not_eq_true', beq_iff_eq]

theorem noOperands_eq_true_iff (w : Word) : noOperands w = true ↔ w.extractLsb' 0 72 = 0 := by
  rw [extractLsb'_eq_zero_iff w 0 24 48, extractLsb'_eq_zero_iff w 48 8 16, noOperands, Bool.and_eq_true, idxOnly_eq_true_iff,
    beq_iff_eq]
  exact ⟨fun ⟨⟨hf, hc⟩, hi⟩ => ⟨hc, hi, hf⟩, fun ⟨hc, hi, hf⟩ => ⟨⟨hf, hc⟩, hi⟩⟩

/-- `rsv` is the flags byte above bit 0 (R53). -/
theorem extractLsb'_flags_eq_rsvField (w : Word) : (w.extractLsb' 64 8).extractLsb' 1 7 = rsvField w := by
  apply BitVec.eq_of_getLsbD_eq
  intro i hi
  simp only [rsvField, BitVec.getLsbD_extractLsb', hi, decide_true, Bool.true_and, ← Nat.add_assoc]
  rw [decide_eq_true (by omega), Bool.true_and]

/-- `gc` is bit 0 of the flags byte (R53). -/
theorem getLsbD_flags_eq_gcField (w : Word) : (w.extractLsb' 64 8).getLsbD 0 = gcField w := by
  rw [gcField, BitVec.getLsbD_extractLsb']
  rfl

/-- Settles O9: under a listed opcode both sides read its row, and a reserved opcode falls through the table. -/
theorem decodeIsTheStatedTable : Obligations.DecodeIsTheStatedTable := by
  intro w
  refine ⟨?_, fun P s => ?_⟩
  · rcases opField_listed_or_reserved w with ⟨i, hop⟩ | hres
    · have hw : w.extractLsb' 72 8 = i.opcode := hop
      simp only [decode_of_listed hop, toInstr_whenZero, hw, extractLsb'_flags_eq_rsvField, getLsbD_flags_eq_gcField]
      cases i with
      | construct | unsetpx | getpx => exact if_congr (idxOnly_eq_true_iff w) rfl rfl
      | begin | alloff | showFrame | destroy | status => exact if_congr (noOperands_eq_true_iff w) rfl rfl
      | setpx => exact if_congr beq_iff_eq rfl rfl
      | allon => exact if_congr (by rw [rowZeros, Bool.and_eq_true, beq_iff_eq, beq_iff_eq]; rfl) rfl rfl
    · have hn : (w.extractLsb' 72 8).toNat = 0 ∨ 0x0B ≤ (w.extractLsb' 72 8).toNat := toNat_of_reserved hres
      rw [decode_of_reserved hres]
      dsimp only
      split
      case h_11 => rfl
      all_goals omega
  · cases h : decode w with
    | cmd i => exact transact_of_cmd h P s
    | illegal why => exact transact_of_illegal h P s

end Sys2Proof
end

section
/-! PROOFS. The codec: the channel clamp, the gamma lookup and the packed packet (R67 to R80). -/

namespace Sys2Proof
open Sys2Proof.Machine

/-- A packet whose bits 31 and 30 are clear is below 2^30 (R74). -/
theorem toNat_zero_append_lt (y : BitVec 30) : (0#2 ++ y).toNat < 2 ^ 30 := by
  rw [BitVec.toNat_append, BitVec.toNat_zero, Nat.zero_shiftLeft, Nat.zero_or]
  exact y.isLt

theorem packPwm_lt (l : PwmLayout) (r g b : U10) : (packPwm l r g b).toNat < 2 ^ 30 := by
  cases l <;> exact toNat_zero_append_lt _

/-- Bits 31 and 30 of a packed packet are clear, so the decoder gives its channels back with the spare bit 0. -/
theorem decodePacket_packPwm_eq_pwm (l : PwmLayout) (r g b : U10) :
    decodePacket l (packPwm l r g b) = .pwm r g b false := by
  rw [decodePacket_packPwm, packPwm_bit31, packPwm_bit30]
  rfl

/-- Packing has a left inverse, the decoder. -/
theorem packPwm_injective {l : PwmLayout} {r g b r' g' b' : U10} (h : packPwm l r g b = packPwm l r' g' b') :
    r = r' ∧ g = g' ∧ b = b' := by
  have hdec := congrArg (decodePacket l) h
  rw [decodePacket_packPwm_eq_pwm, decodePacket_packPwm_eq_pwm] at hdec
  injection hdec with hr hg hb
  exact ⟨hr, hg, hb⟩

/-- Settles O18: the decoder inverts packing, from which injectivity follows. -/
theorem packedPacketDecodesBack : Obligations.PackedPacketDecodesBack := by
  intro l
  exact ⟨fun r g b => ⟨decodePacket_packPwm_eq_pwm l r g b, packPwm_lt l r g b⟩, fun _ _ _ _ _ _ => packPwm_injective,
    packPwm_zero l, packPwm_full l⟩

/-- Settles O14, range by range. -/
theorem clampSaturates : Obligations.ClampSaturates := by
  intro x
  refine ⟨fun h => clamp10_low h.le, fun h => clamp10_high h.le, fun h0 h1 => ?_⟩
  rw [clamp10_mid h0 h1, Int.toNat_of_nonneg h0]

@[simp] theorem encChannel_true (P : Params) (x : Int) : encChannel P x true = P.gamma (clamp10 x) := rfl

@[simp] theorem encChannel_false (P : Params) (x : Int) : encChannel P x false = clamp10 x := rfl

/-- An input at or beyond an end point is clamped to that end point (R67). -/
theorem clamp10_of_not_inside {x : Int} (h : x ≤ 0 ∨ 1023 ≤ x) : clamp10 x = 0 ∨ clamp10 x = 1023 :=
  h.imp clamp10_low clamp10_high

/-- Settles O17: at or beyond the end points the clamp gives 0 or 1023, which P3 of R70 maps to themselves. -/
theorem channelIsClampedThenLookedUp : Obligations.ChannelIsClampedThenLookedUp := by
  refine ⟨fun P x => ⟨encChannel_true P x, encChannel_false P x⟩, fun P x hP hx => ?_⟩
  rw [encChannel_true, encChannel_false]
  rcases clamp10_of_not_inside hx with h | h
  · rw [h, hP.gamma_zero]
  · rw [h, hP.gamma_last]

end Sys2Proof
end

section
/-! PROOFS. The lifecycle: the table of R83, what every command does to LIFE and NLEN, and CONSTRUCT, BEGIN and STATUS
(R83 to R85, R87, R89). -/

namespace Sys2Proof
open Sys2Proof.Machine

/-- A word of a listed row whose must-be-zero bits are zero spells that row's command with the word's operands (R59). -/
theorem decode_of_row {w : Word} {i : Instr} (hop : opField w = i.opcode) (hz : rowZeros i w = true) :
    decode w = .cmd (rowCommand i w) := by
  rw [decode_of_listed hop, hz]
  rfl

/-! The table of R83 -/

/-- A command the table refuses ends with `E_LIFECYCLE`, whatever else is wrong with it (R115). -/
theorem errorOf_of_refused {i : Instr} {s : State} (h : admits i s.life = false) (P : Params) :
    errorOf P i s = some .eLifecycle :=
  if_neg (by rw [h]; exact Bool.false_ne_true)

/-- A command the table admits can only end with `E_INDEX` or `E_ALLOC`. -/
theorem errorOf_ne_eLifecycle {i : Instr} {s : State} (h : admits i s.life = true) (P : Params) :
    errorOf P i s ≠ some .eLifecycle := by
  unfold errorOf
  rw [if_pos h]
  cases i with
  | construct | setpx | unsetpx | getpx => dsimp only; split <;> simp
  | begin | allon | alloff | showFrame | destroy | status => simp

theorem exec_of_error {i : Instr} {s : State} {e : Status} (h : errorOf Config.params i s = some e) :
    exec i s = errorAnswer e s := by
  rw [exec_eq_perform, perform_of_error h]
  rfl

theorem exec_of_refused {i : Instr} {s : State} (h : admits i s.life = false) : exec i s = errorAnswer .eLifecycle s :=
  exec_of_error (errorOf_of_refused h _)

theorem admits_construct (n : Nat) (l : Life) : admits (.construct n) l = !l.live := by
  cases l <;> rfl

/-- In EMPTY and DESTROYED, CONSTRUCT can only fail by its length (R84). -/
theorem errorOf_construct {s : State} (h : s.life.live = false) (P : Params) (n : Nat) :
    errorOf P (.construct n) s = if 1 ≤ n ∧ n ≤ P.maxN then none else some .eAlloc :=
  if_pos (by rw [admits_construct, h]; rfl)

/-! What every command does to LIFE and NLEN -/

/-- `LIFE` after a command that ended with a status (R83). -/
def lifeAfter (i : Instr) (st : Status) (l : Life) : Life :=
  match i, st with
  | .construct _, .ok => .constructed
  | .begin, .ok => .ready
  | .destroy, .ok => .destroyed
  | _, _ => l

/-- `NLEN` after a command that ended with a status (R84, R86, R89). -/
def nlenAfter (i : Instr) (st : Status) (x : BitVec 16) : BitVec 16 :=
  match i, st with
  | .construct n, .ok => BitVec.ofNat 16 n
  | .destroy, .ok => 0
  | _, _ => x

theorem lifeAfter_of_error {st : Status} (h : st ≠ .ok) (i : Instr) (l : Life) : lifeAfter i st l = l := by
  cases st with
  | ok => exact absurd rfl h
  | eIllegal | eLifecycle | eIndex | eAlloc => cases i <;> rfl

theorem nlenAfter_of_error {st : Status} (h : st ≠ .ok) (i : Instr) (x : BitVec 16) : nlenAfter i st x = x := by
  cases st with
  | ok => exact absurd rfl h
  | eIllegal | eLifecycle | eIndex | eAlloc => cases i <;> rfl

/-- Only CONSTRUCT, BEGIN and DESTROY move LIFE, only CONSTRUCT and DESTROY write NLEN, and only when they answer OK. -/
theorem perform_life_nlen (P : Params) (i : Instr) (s : State) :
    (perform P i s).state.life = lifeAfter i (perform P i s).rsp.status s.life ∧
      (perform P i s).state.nlen = nlenAfter i (perform P i s).rsp.status s.nlen := by
  rcases perform_cases P i s with ⟨e, -, hne, hp⟩ | hn
  · rw [hp, raise_rsp, lifeAfter_of_error hne, nlenAfter_of_error hne]
    exact ⟨rfl, rfl⟩
  rw [perform_status_ok hn]
  cases i with
  | construct n => rw [perform_construct hn]; exact ⟨rfl, rfl⟩
  | begin => rw [(perform_begin hn).1]; exact ⟨rfl, rfl⟩
  | setpx idx r g b gc =>
    obtain ⟨hl, hi⟩ := (pixel_errorOf_none (.inr (.inr ⟨r, g, b, gc, rfl⟩))).1 hn
    rw [perform_setpx hl hi]; exact ⟨rfl, rfl⟩
  | unsetpx idx =>
    obtain ⟨hl, hi⟩ := (pixel_errorOf_none (.inl rfl)).1 hn
    rw [perform_unsetpx hl hi]; exact ⟨rfl, rfl⟩
  | allon r g b gc =>
    rw [perform_allon ((frame_errorOf_none (.inr (.inr ⟨r, g, b, gc, rfl⟩))).1 hn)]; exact ⟨rfl, rfl⟩
  | alloff => rw [perform_alloff ((frame_errorOf_none (.inr (.inl rfl))).1 hn)]; exact ⟨rfl, rfl⟩
  | showFrame => rw [perform_show ((frame_errorOf_none (.inl rfl)).1 hn)]; exact ⟨rfl, rfl⟩
  | getpx idx =>
    obtain ⟨hl, hi⟩ := (pixel_errorOf_none (.inr (.inl rfl))).1 hn
    rw [perform_getpx hl hi]; exact ⟨rfl, rfl⟩
  | destroy => rw [(perform_destroy hn).1]; exact ⟨rfl, rfl⟩
  | status => exact ⟨rfl, rfl⟩

/-- No command but DESTROY leaves CONSTRUCTED and READY. -/
theorem live_lifeAfter {i : Instr} (hi : i ≠ .destroy) (st : Status) {l : Life} (hl : l.live = true) :
    (lifeAfter i st l).live = true := by
  unfold lifeAfter
  split
  case h_1 | h_2 => rfl
  case h_3 => exact absurd rfl hi
  case h_4 => exact hl

/-- No command but CONSTRUCT and DESTROY writes NLEN. -/
theorem nlenAfter_of_ne {i : Instr} (hc : ∀ n, i ≠ .construct n) (hd : i ≠ .destroy) (st : Status) (x : BitVec 16) :
    nlenAfter i st x = x := by
  unfold nlenAfter
  split
  case h_1 n => exact absurd rfl (hc n)
  case h_2 => exact absurd rfl hd
  case h_3 => rfl

/-- In CONSTRUCTED and READY only DESTROY writes NLEN: CONSTRUCT is refused (R83, R89). -/
theorem perform_nlen_of_live {i : Instr} {s : State} (hl : s.life.live = true) (hd : i ≠ .destroy) (P : Params) :
    (perform P i s).state.nlen = s.nlen := by
  by_cases hc : ∃ n, i = .construct n
  · obtain ⟨n, rfl⟩ := hc
    have href : admits (.construct n) s.life = false := by rw [admits_construct, hl]; rfl
    rw [perform_of_error (errorOf_of_refused href P), raise_state_nlen]
  · rw [(perform_life_nlen P i s).2, nlenAfter_of_ne (not_exists.1 hc) hd]

/-- Settles O26: a refused command is `E_LIFECYCLE` alone, and every command moves LIFE as its status says. -/
theorem lifecycleTableIsEnforced : Obligations.LifecycleTableIsEnforced := by
  intro i s
  refine ⟨exec_of_refused, fun hadm => ?_⟩
  refine ⟨_, _, _, exec_eq_perform i s, perform_record_trace Config.params i s, ?_, ?_⟩
  · rcases perform_cases Config.params i s with ⟨e, he, -, hp⟩ | hn
    · rw [hp]
      rintro rfl
      exact errorOf_ne_eLifecycle hadm _ he
    · rw [perform_status_ok hn]
      decide
  · exact (perform_life_nlen Config.params i s).1

/-- Settles O27: an illegal word writes neither field, and a command only as its row and status say. -/
theorem chainLengthIsFixed : Obligations.ChainLengthIsFixed := by
  intro P w s hd
  cases h : decode w with
  | illegal why =>
    rw [transact_of_illegal h]
    exact ⟨fun hl => ⟨rfl, hl⟩, fun _ => rfl⟩
  | cmd i =>
    have hdi : i ≠ .destroy := fun hi => hd (by rw [h, hi])
    obtain ⟨hlife, hnlen⟩ := perform_life_nlen P i s
    rw [transact_of_cmd h]
    refine ⟨fun hl => ⟨perform_nlen_of_live hl hdi P, ?_⟩, fun hc => ?_⟩
    · rw [hlife]
      exact live_lifeAfter hdi _ hl
    · rw [hnlen]
      exact nlenAfter_of_ne (fun n hi => hc n (by rw [hi])) hdi _ _

/-! CONSTRUCT, BEGIN and STATUS -/

/-- Settles O21: the encoding by its row, then the three outcomes by the error CONSTRUCT ends with, if any. -/
theorem constructMakesAZeroedInstance : Obligations.ConstructMakesAZeroedInstance := by
  refine ⟨fun w hop hflags hchan => ?_, fun n s => ⟨fun hlife h1 hn => ?_, fun hlife => ?_, fun hlife hn => ?_⟩⟩
  · exact decode_of_row (i := .construct 0) hop ((idxOnly_eq_true_iff w).2 ⟨hflags, hchan⟩)
  · have hnone : errorOf Config.params (.construct n) s = none := by
      rw [errorOf_construct ((not_live_iff _).2 hlife), if_pos ⟨h1, hn⟩]
    have hread : ∀ i, bufRead (perform Config.params (.construct n) s).record i = if i < n then 0 else bufRead s i := by
      intro i
      rw [perform_construct hnone, ← bufRead_bufFill]
      exact bufRead_congr rfl rfl i
    refine ⟨_, exec_eq_perform _ s, ?_, ?_, fun i hi => ?_, fun i hi => ?_⟩
    · rw [perform_construct hnone]; rfl
    · rw [perform_construct hnone]
      exact Nat.mod_eq_of_lt (by have := config_maxN.2; omega)
    · rw [hread, if_pos hi]
    · rw [hread, if_neg (by omega)]
  · exact exec_of_refused (by rw [admits_construct, (live_iff _).2 hlife]; rfl)
  · exact exec_of_error (by rw [errorOf_construct ((not_live_iff _).2 hlife), if_neg (by omega)])

/-- Settles O22: from low levels, lowering the latch is no change, so only the pin drive and the transport give events. -/
theorem beginDrivesTheLatchAndTheTransport : Obligations.BeginDrivesTheLatchAndTheTransport := by
  refine ⟨fun w hop hz => ?_, fun s => ⟨fun hlife hlev => ?_, fun hlife => exec_of_refused (beq_false_of_ne hlife)⟩⟩
  · exact decode_of_row (i := .begin) hop ((noOperands_eq_true_iff w).2 hz)
  · have hnone : errorOf Config.params .begin s = none := by rw [errorOf, hlife]; rfl
    obtain ⟨hstate, hrsp, hevs⟩ := perform_begin hnone
    injection hlev with hoe hq hen
    rw [exec_eq_perform, Done.record, hstate, hrsp, hevs, hoe, hq, hen]
    rfl

/-- Settles O24: STATUS ends with its input state in every LIFE. -/
theorem statusAnswersTheStatusWord : Obligations.StatusAnswersTheStatusWord := by
  refine ⟨fun w hop hz => ?_, fun s => ?_⟩
  · exact decode_of_row (i := .status) hop ((noOperands_eq_true_iff w).2 hz)
  · rw [exec_eq_perform, perform_status]
    rfl

end Sys2Proof
end

section
/-! PROOFS. The pixel commands: their checks, what SETPX, UNSETPX and GETPX do and leave unchanged, and reading a written
colour back (R90 to R96). -/

namespace Sys2Proof
open Sys2Proof.Machine

/-! The configured gamma table, whatever its contents (R70) -/

theorem gammaTable_mono (f : U10 → U10) {x y : U10} (h : x.toNat ≤ y.toNat) :
    (gammaTable f x).toNat ≤ (gammaTable f y).toNat := by
  unfold gammaTable
  by_cases hy : y = 1023
  · rw [if_pos hy]
    exact Nat.le_of_lt_succ (BitVec.isLt _)
  · have hx : x ≠ 1023 := by
      rintro rfl
      exact hy (BitVec.eq_of_toNat_eq (Nat.le_antisymm (Nat.le_of_lt_succ y.isLt) h))
    rw [if_neg hx, if_neg hy]
    exact runningMax_mono f h

/-- The configured parameters meet R7 and R70. -/
theorem config_params_valid : Config.params.Valid where
  maxN_pos := config_maxN.1
  maxN_le := config_maxN.2
  gamma_mono _ _ := gammaTable_mono Config.gammaContents
  gamma_zero := rfl
  gamma_last := rfl
  latchHigh_pos := Nat.le_add_left 1 _

/-! The checks (R90) -/

/-- `c` is SETPX, UNSETPX or GETPX of index `i`. -/
def IsPixelCommand (i : Nat) (c : Instr) : Prop :=
  c = .unsetpx i ∨ c = .getpx i ∨ ∃ r g b gc, c = .setpx i r g b gc

theorem isPixelCommand_unsetpx (i : Nat) : IsPixelCommand i (.unsetpx i) := .inl rfl

theorem isPixelCommand_getpx (i : Nat) : IsPixelCommand i (.getpx i) := .inr (.inl rfl)

theorem isPixelCommand_setpx (i : Nat) (r g b : Int) (gc : Bool) : IsPixelCommand i (.setpx i r g b gc) :=
  .inr (.inr ⟨r, g, b, gc, rfl⟩)

/-- The table of R83 admits the pixel commands exactly in CONSTRUCTED and READY. -/
theorem admits_pixel {i : Nat} {c : Instr} (hc : IsPixelCommand i c) (l : Life) : admits c l = l.live := by
  rcases hc with rfl | rfl | ⟨r, g, b, gc, rfl⟩ <;> cases l <;> rfl

/-- LIFE first, then the index. -/
theorem errorOf_pixel {i : Nat} {c : Instr} (hc : IsPixelCommand i c) (P : Params) (s : State) :
    errorOf P c s =
      if s.life.live = true then if i < s.nlen.toNat then none else some .eIndex else some .eLifecycle := by
  unfold errorOf
  rw [admits_pixel hc]
  rcases hc with rfl | rfl | ⟨r, g, b, gc, rfl⟩ <;> rfl

/-- Settles O31: the error each failed check ends with. -/
theorem pixelCommandsCheckLifeThenIndex : Obligations.PixelCommandsCheckLifeThenIndex := by
  intro i c s hc
  refine ⟨fun hlife => exec_of_error ?_, fun hlife hi => exec_of_error ?_⟩
  · rw [errorOf_pixel hc, (not_live_iff _).2 hlife, if_neg Bool.false_ne_true]
  · rw [errorOf_pixel hc, if_pos ((live_iff _).2 hlife), if_neg (Nat.not_lt.2 hi)]

/-! What a pixel command does -/

/-- One inversion for a pixel command: it fails, it writes its entry, or it answers a datum and writes nothing. -/
theorem perform_pixel_cases {i : Nat} {c : Instr} (hc : IsPixelCommand i c) (P : Params) (s : State) :
    (∃ e, perform P c s = raise e s) ∨ (∃ v, perform P c s = ⟨bufWrite s i v, ⟨.ok, 0⟩, []⟩) ∨
      ∃ d, perform P c s = ⟨s, ⟨.ok, d⟩, []⟩ := by
  rcases perform_cases P c s with ⟨e, -, -, hp⟩ | hn
  · exact .inl ⟨e, hp⟩
  · obtain ⟨hl, hi⟩ := (pixel_errorOf_none hc).1 hn
    rcases hc with rfl | rfl | ⟨r, g, b, gc, rfl⟩
    · exact .inr (.inl ⟨_, perform_unsetpx hl hi⟩)
    · exact .inr (.inr ⟨_, perform_getpx hl hi⟩)
    · exact .inr (.inl ⟨_, perform_setpx hl hi⟩)

/-- A pixel command emits nothing, and writes at most BUF and ERR. -/
theorem perform_pixel_frame {i : Nat} {c : Instr} (hc : IsPixelCommand i c) (P : Params) (s : State) :
    (perform P c s).evs = [] ∧
      ∃ buf err, (perform P c s).state = { s with buf := buf, err := err } := by
  rcases perform_pixel_cases hc P s with ⟨e, hp⟩ | ⟨v, hp⟩ | ⟨d, hp⟩ <;> rw [hp] <;> exact ⟨rfl, _, _, rfl⟩

@[simp] theorem bufRead_record (d : Done) (i : Nat) : bufRead d.record i = bufRead d.state i := bufRead_congr rfl rfl i

/-- A pixel command leaves every entry but its own. -/
theorem bufRead_perform_pixel_other {i j : Nat} {c : Instr} (hc : IsPixelCommand j c) (hij : i ≠ j) (P : Params)
    (s : State) : bufRead (perform P c s).state i = bufRead s i := by
  rcases perform_pixel_cases hc P s with ⟨e, hp⟩ | ⟨v, hp⟩ | ⟨d, hp⟩
  · rw [hp]
    exact bufRead_congr rfl rfl i
  · rw [hp, bufRead_bufWrite, if_neg hij]
  · rw [hp]

/-- Settles O32: of what a pixel command writes, nothing is a level, LIFE or NLEN. -/
theorem pixelCommandsAreSilent : Obligations.PixelCommandsAreSilent := by
  intro i c s hc
  obtain ⟨hevs, buf, err, hstate⟩ := perform_pixel_frame hc Config.params s
  refine ⟨_, _, exec_eq_perform c s, by rw [perform_record_trace, hevs], ?_⟩
  simp only [record_latchOe, record_latchQ, record_spiEn, record_life, record_nlen, hstate, and_self]

/-! The three commands (R91 to R93) -/

/-- The answer of a command that stores a packet at one index. -/
theorem exec_of_pixel_write {i : Nat} {c : Instr} {s : State} {v : Packet}
    (h : perform Config.params c s = ⟨bufWrite s i v, ⟨.ok, 0⟩, []⟩) :
    ∃ t, exec c s = .next t ∧ t = { s with buf := t.buf, trace := s.trace ++ [.response ⟨.ok, 0⟩ []] } ∧
      bufRead t i = v ∧ ∀ j, j ≠ i → bufRead t j = bufRead s j := by
  refine ⟨_, exec_eq_perform c s, ?_, ?_, fun j hj => ?_⟩ <;> rw [h]
  · rfl
  · rw [bufRead_record, bufRead_bufWrite, if_pos rfl]
  · rw [bufRead_record, bufRead_bufWrite, if_neg hj]

/-- Settles O28: the encoding by its row, the write, and the two failed checks. -/
theorem setpxStoresTheEncodedColour : Obligations.SetpxStoresTheEncodedColour := by
  refine ⟨fun w hop hrsv => ?_, fun i r g b gc s => ⟨fun hlife hi => ?_, ?_⟩⟩
  · exact decode_of_row (i := .setpx 0 0 0 0 false) hop (beq_iff_eq.2 hrsv)
  · exact exec_of_pixel_write (perform_setpx ((live_iff _).2 hlife) hi)
  · exact pixelCommandsCheckLifeThenIndex i _ s (isPixelCommand_setpx i r g b gc)

/-- UNSETPX is SETPX of black, with gamma or without (R92). -/
theorem perform_unsetpx_eq_setpx {P : Params} (hP : P.Valid) (i : Nat) (gc : Bool) (s : State) :
    perform P (.unsetpx i) s = perform P (.setpx i 0 0 0 gc) s := by
  show doUnsetpx P i s = doSetpx P i 0 0 0 gc s
  rw [doUnsetpx, doSetpx, encodeColor_black hP, encodeColor_black hP]

/-- Settles O29: the write is of black, which every valid table and layout encodes as zero. -/
theorem unsetpxStoresZero : Obligations.UnsetpxStoresZero := by
  refine ⟨fun w hop hflags hchan => ?_, fun i s => ⟨fun hlife hi => exec_of_pixel_write ?_, ?_, ?_, fun gc => ?_⟩⟩
  · exact decode_of_row (i := .unsetpx 0) hop ((idxOnly_eq_true_iff w).2 ⟨hflags, hchan⟩)
  · rw [perform_unsetpx ((live_iff _).2 hlife) hi, encodeColor_black config_params_valid]
  · exact (pixelCommandsCheckLifeThenIndex i _ s (isPixelCommand_unsetpx i)).1
  · exact (pixelCommandsCheckLifeThenIndex i _ s (isPixelCommand_unsetpx i)).2
  · rw [exec_eq_perform, exec_eq_perform, perform_unsetpx_eq_setpx config_params_valid]

/-- Settles O30: the encoding by its row, the read, and the two failed checks. -/
theorem getpxAnswersTheStoredPacket : Obligations.GetpxAnswersTheStoredPacket := by
  refine ⟨fun w hop hflags hchan => ?_, fun i s => ⟨fun hlife hi => ?_, ?_⟩⟩
  · exact decode_of_row (i := .getpx 0) hop ((idxOnly_eq_true_iff w).2 ⟨hflags, hchan⟩)
  · rw [exec_eq_perform, perform_getpx ((live_iff _).2 hlife) hi]
    rfl
  · exact pixelCommandsCheckLifeThenIndex i _ s (isPixelCommand_getpx i)

/-! The same SETPX twice (R95) -/

/-- An error raised twice leaves the sticky field as once (R114). -/
@[simp] theorem stickyErr_stickyErr (x : BitVec 4) (e : Status) : stickyErr (stickyErr x e) e = stickyErr x e := by
  by_cases h : x = 0
  · simp only [stickyErr, if_pos h, ite_self]
  · simp only [stickyErr, if_neg h]

/-- SETPX after itself fails as before, or writes the same packet again. -/
theorem perform_setpx_again {P : Params} {i : Nat} {r g b : Int} {gc : Bool} {s : State} {d : Done}
    (h : perform P (.setpx i r g b gc) s = d) : perform P (.setpx i r g b gc) d.record = ⟨d.record, d.rsp, d.evs⟩ := by
  have hc := isPixelCommand_setpx i r g b gc
  subst h
  rcases perform_cases P (.setpx i r g b gc) s with ⟨e, he, -, hp⟩ | hn
  · have hagain : errorOf P (.setpx i r g b gc) (raise e s).record = some e := by
      rw [← he, errorOf_pixel hc, errorOf_pixel hc]
      rfl
    rw [hp, perform_of_error hagain]
    simp only [raise, Done.record, stickyErr_stickyErr]
  · obtain ⟨hl, hi⟩ := (pixel_errorOf_none hc).1 hn
    rw [perform_setpx hl hi, perform_setpx (by exact hl) (by exact hi)]
    simp only [bufWrite, Done.record, memWrite_memWrite_same]

/-- Settles O33: the second SETPX starts from the state it would leave, and gives the same response. -/
theorem setpxIsIdempotent : Obligations.SetpxIsIdempotent := by
  intro i r g b gc s
  have hevs := (perform_pixel_frame (isPixelCommand_setpx i r g b gc) Config.params s).1
  refine ⟨_, _, _, exec_eq_perform _ s, exec_eq_perform _ _, by rw [perform_record_trace, hevs], ?_⟩
  rw [perform_setpx_again rfl, Done.record, hevs]

/-! Reading a written colour back (R96) -/

/-- The entry at `i` can be read and holds `v`. -/
structure HoldsPixel (i : Nat) (v : Packet) (s : State) : Prop where
  live : s.life.live = true
  index : i < s.nlen.toNat
  packet : bufRead s i = v

theorem holdsPixel_of_setpx {i : Nat} {s : State} (hl : s.life.live = true) (hi : i < s.nlen.toNat) (P : Params)
    (r g b : Int) (gc : Bool) : HoldsPixel i (encodeColor P r g b gc) (perform P (.setpx i r g b gc) s).record := by
  rw [perform_setpx hl hi]
  exact ⟨hl, hi, by rw [bufRead_record, bufRead_bufWrite, if_pos rfl]⟩

/-- A pixel command of another index keeps the entry. -/
theorem HoldsPixel.perform_other {i j : Nat} {v : Packet} {s : State} {c : Instr} (h : HoldsPixel i v s)
    (hc : IsPixelCommand j c) (hij : i ≠ j) (P : Params) : HoldsPixel i v (perform P c s).record := by
  obtain ⟨-, buf, err, hstate⟩ := perform_pixel_frame hc P s
  refine ⟨?_, ?_, ?_⟩
  · rw [record_life, hstate]
    exact h.live
  · rw [record_nlen, hstate]
    exact h.index
  · rw [bufRead_record, bufRead_perform_pixel_other hc hij, h.packet]

/-- GETPX answers the entry that can be read. -/
theorem HoldsPixel.getpx_rsp {i : Nat} {v : Packet} {s : State} (h : HoldsPixel i v s) : (doGetpx i s).rsp = ⟨.ok, v⟩ := by
  rw [doGetpx, withPixel_ok h.live h.index, succeed_rsp, h.packet]

theorem decodePacket_encodeColor (P : Params) (r g b : Int) (gc : Bool) :
    decodePacket P.layout (encodeColor P r g b gc) = .pwm (encChannel P r gc) (encChannel P g gc) (encChannel P b gc) false :=
  decodePacket_packPwm_eq_pwm _ _ _ _

/-- Settles O34: SETPX makes the entry readable, every command between keeps it, and the decoder inverts the encoder. -/
theorem getpxAfterSetpxAnswersTheColour : Obligations.GetpxAfterSetpxAnswersTheColour := by
  intro P i r g b gc between s hlife hi hbetween
  refine ⟨HoldsPixel.getpx_rsp ?_, decodePacket_encodeColor P r g b gc⟩
  refine List.foldlRecOn between _ (holdsPixel_of_setpx ((live_iff _).2 hlife) hi P r g b gc) fun t ht c hmem => ?_
  rcases hbetween c hmem with ⟨j, hj, rfl⟩ | ⟨j, r', g', b', gc', hj, rfl⟩
  · exact ht.perform_other (isPixelCommand_unsetpx j) hj.symm P
  · exact ht.perform_other (isPixelCommand_setpx j r' g' b' gc') hj.symm P

end Sys2Proof
end

section
/-! PROOFS. The frame commands: their LIFE check, the state and the events SHOW, ALLON and ALLOFF leave, and ALLON as a run of
SETPX and SHOW (R97 to R102, R106). -/

namespace Sys2Proof
open Sys2Proof.Machine

/-! The check (R97) -/

/-- `c` is SHOW, ALLOFF or ALLON. -/
def IsFrameCommand (c : Instr) : Prop :=
  c = .showFrame ∨ c = .alloff ∨ ∃ r g b gc, c = .allon r g b gc

theorem isFrameCommand_show : IsFrameCommand .showFrame := .inl rfl

theorem isFrameCommand_alloff : IsFrameCommand .alloff := .inr (.inl rfl)

theorem isFrameCommand_allon (r g b : Int) (gc : Bool) : IsFrameCommand (.allon r g b gc) :=
  .inr (.inr ⟨r, g, b, gc, rfl⟩)

/-- The table of R83 admits the frame commands exactly in READY. -/
theorem admits_frame {c : Instr} (hc : IsFrameCommand c) (l : Life) : admits c l = (l == .ready) := by
  rcases hc with rfl | rfl | ⟨r, g, b, gc, rfl⟩ <;> rfl

theorem exec_frame_of_not_ready {c : Instr} {s : State} (hc : IsFrameCommand c) (h : s.life ≠ .ready) :
    exec c s = errorAnswer .eLifecycle s :=
  exec_of_refused (by rw [admits_frame hc, beq_false_of_ne h])

/-- Settles O39: the table refuses outside READY, and R24 gives the levels. -/
theorem frameCommandsNeedReady : Obligations.FrameCommandsNeedReady :=
  ⟨fun _ _ hc h => exec_frame_of_not_ready hc h, fun _ _ hinv h => ⟨hinv.spiEn_iff.2 h, hinv.latchOe_iff.2 h⟩⟩

/-! What a frame command leaves -/

/-- In READY a frame command is a frame of the state that differs at most in BUF. -/
theorem perform_frame_eq {c : Instr} {s : State} (hc : IsFrameCommand c) (h : s.life = .ready) (P : Params) :
    ∃ buf, perform P c s = frameDone { s with buf := buf } := by
  rcases hc with rfl | rfl | ⟨r, g, b, gc, rfl⟩
  · exact ⟨_, perform_show h⟩
  · exact ⟨_, perform_alloff h⟩
  · exact ⟨_, perform_allon h⟩

/-- With the latch low a frame leaves the state, and its pulse is two events. -/
theorem frameDone_of_latch_low {s : State} (hq : s.latchQ = false) :
    frameDone s = ⟨s, ⟨.ok, 0⟩, frameBytes s s.nlen.toNat ++ [.latch true, .latch false]⟩ := by
  rw [frameDone, hq, pulseEvents_low, ← hq]

/-- The answer of a command that is a frame from a state with the latch low. -/
theorem exec_of_frameDone {c : Instr} {s u : State} (h : perform Config.params c s = frameDone u) (hq : u.latchQ = false) :
    exec c s = .next { u with
      trace := u.trace ++ [.response ⟨.ok, 0⟩ (frameBytes u u.nlen.toNat ++ [.latch true, .latch false])] } := by
  rw [exec_eq_perform, h, frameDone_of_latch_low hq]
  rfl

/-! The bytes of a frame by position (R42, R98, R102) -/

@[simp] theorem packetBytes_length (p : Packet) : (packetBytes p).length = 4 := rfl

@[simp] theorem frameBytes_length (s : State) (n : Nat) : (frameBytes s n).length = 4 * n := by
  induction n with
  | zero => rfl
  | succ k ih => rw [frameBytes, List.length_append, packetBytes_length, ih]; omega

theorem packetBytes_getElem? (p : Packet) (j : Fin 4) : (packetBytes p)[j.val]? = some (.byte (wireByte p j)) := by
  rw [← List.head?_drop, packet_drop, List.head?_cons]

/-- The packet at position `m` is the entry `m` below the top. -/
theorem frameBytes_getElem? (s : State) (j : Fin 4) {m n : Nat} (hm : m < n) :
    (frameBytes s n)[4 * m + j.val]? = some (.byte (wireByte (bufRead s (n - 1 - m)) j)) := by
  induction n generalizing m with
  | zero => omega
  | succ k ih =>
    rw [frameBytes]
    cases m with
    | zero =>
      rw [List.getElem?_append_left (by simp), Nat.mul_zero, Nat.zero_add, packetBytes_getElem?]
      rfl
    | succ m =>
      have hpos : 4 * (m + 1) + j.val - 4 = 4 * m + j.val := by omega
      have hidx : k + 1 - 1 - (m + 1) = k - 1 - m := by omega
      rw [List.getElem?_append_right (by rw [packetBytes_length]; omega), packetBytes_length, hpos, hidx,
        ih (Nat.lt_of_succ_lt_succ hm)]

/-- Settles O35: the bytes by position, then the two events of the pulse. -/
theorem frameBytesGoHighestIndexFirst : Obligations.FrameBytesGoHighestIndexFirst := by
  intro c s hc hlife hq
  obtain ⟨buf, hp⟩ := perform_frame_eq hc hlife Config.params
  refine ⟨_, _, exec_of_frameDone hp hq, rfl, rfl, ?_, fun m j hm => ?_, ?_, ?_⟩
  · rw [List.length_append, frameBytes_length]
    rfl
  · have hin : 4 * m + j.val < 4 * s.nlen.toNat := by omega
    rw [List.getElem?_append_left (by rw [frameBytes_length]; exact hin), frameBytes_getElem? _ j hm]
    rfl
  · rw [List.getElem?_append_right (by rw [frameBytes_length]), frameBytes_length, Nat.sub_self]
    rfl
  · rw [List.getElem?_append_right (by rw [frameBytes_length]; exact Nat.le_succ _), frameBytes_length,
      Nat.add_sub_cancel_left]
    rfl

/-! The three commands (R99 to R101) -/

/-- Settles O36: the encoding by its row, the frame of the state itself, and the refusal. -/
theorem showSendsTheBufferAndLatches : Obligations.ShowSendsTheBufferAndLatches := by
  refine ⟨fun w hop hz => ?_, fun s => ⟨fun hlife hq => ?_, exec_frame_of_not_ready isFrameCommand_show⟩⟩
  · exact decode_of_row (i := .showFrame) hop ((noOperands_eq_true_iff w).2 hz)
  · exact exec_of_frameDone (perform_show hlife) hq

/-- What a fill and its frame leave in BUF. -/
theorem bufRead_fill_frame (s : State) (n i : Nat) (v : Packet) :
    bufRead (frameDone (bufFill s n v)).record i = if i < n then v else bufRead s i := by
  rw [← bufRead_bufFill]
  exact bufRead_congr rfl rfl i

/-- The state after a fill of every entry below NLEN and its frame, with the latch low before. -/
theorem fill_frame_record {s t : State} {v : Packet} (h : t = (frameDone (bufFill s s.nlen.toNat v)).record)
    (hq : s.latchQ = false) :
    t = { s with
      buf := t.buf
      trace := s.trace ++ [.response ⟨.ok, 0⟩
        ((List.replicate s.nlen.toNat (packetBytes v)).flatten ++ [.latch true, .latch false])] } ∧
    (∀ i, i < s.nlen.toNat → bufRead t i = v) ∧ ∀ i, s.nlen.toNat ≤ i → bufRead t i = bufRead s i := by
  subst h
  have hbytes : frameBytes (bufFill s s.nlen.toNat v) s.nlen.toNat =
      (List.replicate s.nlen.toNat (packetBytes v)).flatten :=
    frameBytes_const _ v _ fun i hi => by rw [bufRead_bufFill, if_pos hi]
  refine ⟨?_, fun i hi => ?_, fun i hi => ?_⟩
  · rw [frameDone_of_latch_low (by exact hq), bufFill_nlen, hbytes]
    rfl
  · rw [bufRead_fill_frame, if_pos hi]
  · rw [bufRead_fill_frame, if_neg (Nat.not_lt.2 hi)]

/-- Settles O37: the encoding by its row, the fill with the encoded colour, and the refusal. -/
theorem allonFillsAndSends : Obligations.AllonFillsAndSends := by
  refine ⟨fun w hop hrsv hidx => ?_, fun r g b gc s => ⟨fun hlife hq => ?_, ?_⟩⟩
  · have hz : rowZeros (.allon 0 0 0 false) w = true := by
      rw [rowZeros, Bool.and_eq_true, beq_iff_eq, beq_iff_eq]
      exact ⟨hrsv, hidx⟩
    exact decode_of_row hop hz
  · exact ⟨_, exec_eq_perform _ s, fill_frame_record (congrArg Done.record (perform_allon hlife)) hq⟩
  · exact exec_frame_of_not_ready (isFrameCommand_allon r g b gc)

/-- A frame of zero packets is zero bytes. -/
theorem flatten_replicate_packetBytes_zero (n : Nat) :
    (List.replicate n (packetBytes 0)).flatten = List.replicate (4 * n) (.byte 0) := by
  have hzero : packetBytes 0 = List.replicate 4 (.byte 0) := by decide
  rw [hzero, List.flatten_replicate_replicate, Nat.mul_comm]

/-- GETPX of an entry that holds 0 answers `(OK, 0)` and leaves the state. -/
theorem exec_getpx_of_zero {i : Nat} {s : State} (h : HoldsPixel i 0 s) :
    exec (.getpx i) s = .next { s with trace := s.trace ++ [.response ⟨.ok, 0⟩ []] } := by
  rw [exec_eq_perform, perform_getpx h.live h.index, h.packet]
  rfl

/-- After ALLOFF every entry below NLEN can be read and holds 0. -/
theorem holdsPixel_of_alloff {s : State} (h : s.life = .ready) (P : Params) {i : Nat} (hi : i < s.nlen.toNat) :
    HoldsPixel i 0 (perform P .alloff s).record := by
  rw [perform_alloff h]
  exact ⟨(live_iff _).2 (.inr h), hi, by rw [bufRead_fill_frame, if_pos hi]⟩

/-- Settles O38: the encoding by its row, the fill with 0, the reads of it, and the refusal. -/
theorem alloffClearsAndSends : Obligations.AlloffClearsAndSends := by
  refine ⟨fun w hop hz => ?_, fun s => ⟨fun hlife hq => ?_, exec_frame_of_not_ready isFrameCommand_alloff⟩⟩
  · exact decode_of_row (i := .alloff) hop ((noOperands_eq_true_iff w).2 hz)
  · obtain ⟨heq, hbelow, habove⟩ := fill_frame_record (congrArg Done.record (perform_alloff (P := Config.params) hlife)) hq
    rw [flatten_replicate_packetBytes_zero] at heq
    exact ⟨_, exec_eq_perform _ s, heq,
      fun i hi => ⟨hbelow i hi, exec_getpx_of_zero (holdsPixel_of_alloff hlife Config.params hi)⟩, habove⟩

/-! ALLON as SETPX of every index, then SHOW (R106) -/

/-- The state with another observation. -/
def withTrace (tr : List Obs) (s : State) : State := { s with trace := tr }

@[simp] theorem bufRead_withTrace (tr : List Obs) (s : State) (i : Nat) : bufRead (withTrace tr s) i = bufRead s i :=
  bufRead_congr rfl rfl i

/-- A frame neither reads nor writes the observation. -/
theorem frameDone_withTrace (tr : List Obs) (s : State) :
    frameDone (withTrace tr s) = { frameDone s with state := withTrace tr (frameDone s).state } := by
  have hbytes : frameBytes (withTrace tr s) s.nlen.toNat = frameBytes s s.nlen.toNat :=
    frameBytes_congr (bufRead_withTrace tr s) _
  rw [frameDone, frameDone, ← hbytes]
  rfl

/-- A fill by one write more. -/
theorem bufFill_succ (s : State) (n : Nat) (v : Packet) : bufFill s (n + 1) v = bufWrite (bufFill s n v) n v := by
  rw [bufFill, memFill_succ_last, Nat.zero_add]
  rfl

/-- SETPX at the first `n` indexes fills them, and is answered `n` times. -/
theorem setEveryPixel_eq {s : State} (hl : s.life.live = true) (P : Params) (r g b : Int) {n : Nat} (hn : n ≤ s.nlen.toNat) :
    setEveryPixel P r g b n s =
      withTrace (s.trace ++ List.replicate n (.response ⟨.ok, 0⟩ [])) (bufFill s n (encodeColor P r g b true)) := by
  induction n with
  | zero => rw [List.replicate_zero, List.append_nil]; rfl
  | succ k ih =>
    have hstep : setEveryPixel P r g b (k + 1) s = (perform P (.setpx k r g b true) (setEveryPixel P r g b k s)).record := rfl
    rw [hstep, ih (Nat.le_of_succ_le hn), perform_setpx (by exact hl) (by exact hn), bufFill_succ, List.replicate_succ',
      ← List.append_assoc]
    rfl

/-- Settles O40: the run of SETPX makes ALLON's fill, and the frame that follows does not see the observation. -/
theorem allonEqualsSettingEveryPixelThenShow : Obligations.AllonEqualsSettingEveryPixelThenShow := by
  intro r g b s hlife
  refine ⟨?_, _, exec_eq_perform _ s, fun i hi => exec_getpx_of_zero (holdsPixel_of_alloff hlife Config.params hi)⟩
  have hset := setEveryPixel_eq ((live_iff _).2 (.inr hlife)) Config.params r g b (Nat.le_refl s.nlen.toNat)
  refine ⟨_, _, .response ⟨.ok, 0⟩ (perform Config.params (.allon r g b true) s).evs, exec_eq_perform _ s,
    exec_eq_perform _ _, ?_, ?_⟩
  all_goals
    rw [hset, perform_allon hlife, perform_show (by exact hlife), frameDone_withTrace]
    rfl

end Sys2Proof
end

section
/-! PROOFS. The errors: what an error leaves, which one a word ends with, and the sticky field as the first of them since the
last reset (R110 to R115). -/

namespace Sys2Proof
open Sys2Proof.Machine

/-! What a word does to ERR (R113) -/

/-- Only the error outcome writes ERR: a command without an error leaves it. -/
theorem perform_err_of_no_error {P : Params} {i : Instr} {s : State} (h : errorOf P i s = none) :
    (perform P i s).state.err = s.err := by
  have hframe (hc : IsFrameCommand i) : (perform P i s).state.err = s.err := by
    obtain ⟨buf, hp⟩ := perform_frame_eq hc ((frame_errorOf_none hc).1 h) P
    rw [hp]
    rfl
  cases i with
  | construct n => rw [perform_construct h, bufFill_err]
  | begin => rw [(perform_begin h).1]
  | setpx idx r g b gc =>
    obtain ⟨hl, hi⟩ := (pixel_errorOf_none (isPixelCommand_setpx idx r g b gc)).1 h
    rw [perform_setpx hl hi, bufWrite_err]
  | unsetpx idx =>
    obtain ⟨hl, hi⟩ := (pixel_errorOf_none (isPixelCommand_unsetpx idx)).1 h
    rw [perform_unsetpx hl hi, bufWrite_err]
  | getpx idx =>
    obtain ⟨hl, hi⟩ := (pixel_errorOf_none (isPixelCommand_getpx idx)).1 h
    rw [perform_getpx hl hi]
  | allon r g b gc => exact hframe (isFrameCommand_allon r g b gc)
  | alloff => exact hframe isFrameCommand_alloff
  | showFrame => exact hframe isFrameCommand_show
  | destroy => rw [(perform_destroy h).1, bufForget_err]
  | status => rfl

/-- One inversion for a word: the error outcome and nothing else, or OK with the sticky field as it was. -/
theorem transact_cases (P : Params) (w : Word) (s : State) :
    (∃ e, e ≠ .ok ∧ transact P w s = raise e s) ∨
      (transact P w s).rsp.status = .ok ∧ (transact P w s).state.err = s.err := by
  cases h : decode w with
  | illegal why => exact .inl ⟨.eIllegal, by decide, transact_of_illegal h P s⟩
  | cmd i =>
    rw [transact_of_cmd h]
    rcases perform_cases P i s with ⟨e, -, hne, hp⟩ | hn
    · exact .inl ⟨e, hne, hp⟩
    · exact .inr ⟨perform_status_ok hn, perform_err_of_no_error hn⟩

/-- Settles O41: a word is the error outcome, or answers OK and leaves ERR. -/
theorem errorsHaveNoOtherEffect : Obligations.ErrorsHaveNoOtherEffect := by
  intro P w s
  rcases transact_cases P w s with ⟨e, hne, ht⟩ | ⟨hok, herr⟩
  · rw [ht]
    exact ⟨fun _ => rfl, fun hok => absurd hok hne⟩
  · exact ⟨fun hne => absurd hok hne, fun _ => herr⟩

/-! Which error a word ends with (R110 to R112, R115) -/

/-- A command ends with the error its checks name, and with OK if they name none. -/
theorem perform_status_eq (P : Params) (i : Instr) (s : State) :
    (perform P i s).rsp.status = (errorOf P i s).getD .ok := by
  rcases perform_cases P i s with ⟨e, he, -, hp⟩ | hn
  · rw [hp, he, raise_rsp, Option.getD_some]
  · rw [hn, perform_status_ok hn, Option.getD_none]

/-- Settles O42: decoding first, then the command's own checks. -/
theorem errorPriorityIsAsStated : Obligations.ErrorPriorityIsAsStated := by
  intro P w s
  cases h : decode w with
  | illegal why => rw [transact_of_illegal h, raise_rsp]
  | cmd i => rw [transact_of_cmd h, perform_status_eq]

/-! ERR and the observation (R19, R114) -/

/-- OK is not an error, so it leaves the sticky field. -/
@[simp] theorem stickyErr_ok (x : BitVec 4) : stickyErr x .ok = x := by
  unfold stickyErr
  split
  · next h => rw [h]; rfl
  · rfl

/-- Every word updates ERR by the status it answers. -/
theorem transact_err (P : Params) (w : Word) (s : State) :
    (transact P w s).state.err = stickyErr s.err (transact P w s).rsp.status := by
  rcases transact_cases P w s with ⟨e, -, ht⟩ | ⟨hok, herr⟩
  · rw [ht, raise_state_err, raise_rsp]
  · rw [hok, herr, stickyErr_ok]

/-- A word leaves the observation to `Done.record`. -/
theorem transact_state_trace (P : Params) (w : Word) (s : State) : (transact P w s).state.trace = s.trace := by
  cases h : decode w with
  | illegal why => rw [transact_of_illegal h, raise_state_trace]
  | cmd i => rw [transact_of_cmd h, (perform_outside P i s).2.1]

@[simp] theorem errorOfTrace_append_response (t : List Obs) (r : Response) (evs : List Event) :
    errorOfTrace (t ++ [.response r evs]) = stickyErr (errorOfTrace t) r.status :=
  List.foldl_append

@[simp] theorem errorOfTrace_append_reset (t : List Obs) (abandoned : List Event) (cut : Bool) (after : List Event) :
    errorOfTrace (t ++ [.reset abandoned cut after]) = 0 :=
  List.foldl_append

/-- An edge with `rst_n` = 0 is a reset, whatever the block is doing (R127). -/
theorem clockEdge_of_reset {p : PortsIn} (h : p.rstN = false) (P : Params) (s : State) :
    clockEdge P p s = resetBlock (abandonedEvents p s) (byteCut p s) s :=
  if_neg (by rw [h]; exact Bool.false_ne_true)

/-- Reset clears ERR, and its item in the observation ends the errors before it. -/
theorem resetBlock_err_eq_errorOfTrace (abandoned : List Event) (cut : Bool) (s : State) :
    (resetBlock abandoned cut s).err = errorOfTrace (resetBlock abandoned cut s).trace :=
  (errorOfTrace_append_reset s.trace abandoned cut _).symm

/-- ERR stands in bits 11:8 of the status word (R25). -/
theorem statusWord_err (s : State) : (statusWord s).extractLsb' 8 4 = s.err := by
  unfold statusWord
  rw [BitVec.extractLsb'_append_eq_of_add_le (by omega), BitVec.extractLsb'_append_eq_of_add_le (by omega)]
  exact BitVec.extractLsb'_append_eq_left

/-- Settles O43: a word updates ERR and the observation's error alike, and a reset makes both 0. -/
theorem errIsTheFirstErrorSinceReset : Obligations.ErrIsTheFirstErrorSinceReset := by
  intro P w p s h
  refine ⟨?_, fun hrst => ?_, fun hdec => ?_⟩
  · rw [record_err, record_trace, transact_state_trace, errorOfTrace_append_response, ← h, transact_err]
  · rw [clockEdge_of_reset hrst, resetBlock_err_eq_errorOfTrace]
  · rw [transact_of_cmd hdec, perform_status, statusWord_err, h]

end Sys2Proof
end

section
/-! PROOFS. The encoder against the decoder, and the assembler's lines (R51 to R59, R61, R64). -/

namespace Sys2Proof
open Sys2Proof.Machine

/-! Decode after encode, and encode after decode -/

/-- The encoding of a well-formed command meets its row of R58. -/
theorem encode_and_maskWord {i : Instr} (h : i.wellFormed = true) : encode i &&& maskWord i = matchWord i := by
  cases i with
  | construct n => exact Laws.MaskedWord.construct n h
  | begin => exact Laws.MaskedWord.begin h
  | setpx idx r g b gc => exact Laws.MaskedWord.setpx idx r g b gc h
  | unsetpx idx => exact Laws.MaskedWord.unsetpx idx h
  | allon r g b gc => exact Laws.MaskedWord.allon r g b gc h
  | alloff => exact Laws.MaskedWord.alloff h
  | showFrame => exact Laws.MaskedWord.showFrame h
  | getpx idx => exact Laws.MaskedWord.getpx idx h
  | destroy => exact Laws.MaskedWord.destroy h
  | status => exact Laws.MaskedWord.status h

/-- The operands of a well-formed command stand in its encoding (R54 to R56). -/
theorem rowCommand_encode {i : Instr} (h : i.wellFormed = true) : rowCommand i (encode i) = i := by
  cases i with
  | construct | unsetpx | getpx => rw [rowCommand, encode, idxField_packC80, toNat_idxBits h]
  | setpx idx r g b gc =>
    simp only [Instr.wellFormed, Bool.and_eq_true] at h
    obtain ⟨⟨⟨hidx, hr⟩, hg⟩, hb⟩ := h
    rw [rowCommand, encode, idxField_packC80, redField_packC80, grnField_packC80, bluField_packC80, gcField_packC80,
      toNat_idxBits hidx, toInt_chanBits hr, toInt_chanBits hg, toInt_chanBits hb]
  | allon r g b gc =>
    simp only [Instr.wellFormed, Bool.and_eq_true] at h
    obtain ⟨⟨hr, hg⟩, hb⟩ := h
    rw [rowCommand, encode, redField_packC80, grnField_packC80, bluField_packC80, gcField_packC80, toInt_chanBits hr,
      toInt_chanBits hg, toInt_chanBits hb]
  | begin | alloff | showFrame | destroy | status => rfl

theorem decode_encode {i : Instr} (h : i.wellFormed = true) : decode (encode i) = .cmd i := by
  obtain ⟨hop, hz⟩ := (and_maskWord_iff _ i).1 (encode_and_maskWord h)
  rw [decode_of_row hop hz, rowCommand_encode h]

/-- Settles O11: the encoding meets its command's row, and that row reads the operands back. -/
theorem decodeOfEncodeIsTheCommand : Obligations.DecodeOfEncodeIsTheCommand := fun _ h => decode_encode h

/-- A field is in the range its operand may have. -/
theorem wellFormed_rowCommand (i : Instr) (w : Word) : (rowCommand i w).wellFormed = true := by
  cases i <;> simp only [rowCommand, Instr.wellFormed, fitsIdx_toNat, fitsChannel_toInt, Bool.and_self]

/-- A word of a listed row is its opcode, its operands and zeros, so encoding the operands gives it back. -/
theorem encode_rowCommand {w : Word} {i : Instr} (hop : opField w = i.opcode) (hz : rowZeros i w = true) :
    encode (rowCommand i w) = w := by
  have hidx (h : idxOnly w = true) :
      rsvField w = 0 ∧ gcField w = false ∧ redField w = 0 ∧ grnField w = 0 ∧ bluField w = 0 := by
    simpa [idxOnly, noChannels, and_assoc] using h
  have hrsv : rsvField w = 0 := by
    cases i with
    | construct | unsetpx | getpx => exact (hidx hz).1
    | begin | alloff | showFrame | destroy | status => exact (hidx (Bool.and_eq_true_iff.1 hz).1).1
    | setpx => exact beq_iff_eq.1 hz
    | allon => exact beq_iff_eq.1 (Bool.and_eq_true_iff.1 hz).1
  refine Eq.trans ?_ (packC80_fields w hrsv)
  rw [hop]
  cases i with
  | construct | unsetpx | getpx =>
    obtain ⟨-, hgc, hred, hgrn, hblu⟩ := hidx hz
    rw [hgc, hred, hgrn, hblu, rowCommand, encode, idxBits_toNat]
    rfl
  | begin | alloff | showFrame | destroy | status =>
    obtain ⟨honly, hi⟩ := Bool.and_eq_true_iff.1 hz
    obtain ⟨-, hgc, hred, hgrn, hblu⟩ := hidx honly
    rw [hgc, hred, hgrn, hblu, beq_iff_eq.1 hi]
    rfl
  | setpx => rw [rowCommand, encode, idxBits_toNat, chanBits_toInt, chanBits_toInt, chanBits_toInt]; rfl
  | allon =>
    rw [beq_iff_eq.1 (Bool.and_eq_true_iff.1 hz).2, rowCommand, encode, chanBits_toInt, chanBits_toInt, chanBits_toInt]
    rfl

/-- Settles O12: a legal word is of its command's row, and that row's fields make up the word. -/
theorem encodeOfDecodeIsTheWord : Obligations.EncodeOfDecodeIsTheWord := by
  intro w i h
  have hop := opField_of_decode h
  rw [decode_of_listed hop, whenZero_eq_cmd] at h
  obtain ⟨hz, hrow⟩ := h
  rw [← hrow]
  exact ⟨wellFormed_rowCommand i w, encode_rowCommand hop hz⟩

/-- Settles O13, word by word. -/
theorem sampleWordsDecode : Obligations.SampleWordsDecode := by
  unfold Obligations.SampleWordsDecode
  decide

/-! The assembler (R64) -/

/-- A command's mnemonic selects its own reader, which reads the written operands back. -/
theorem parseCommand_written (hex : Bool) (i : Instr) : parseCommand (mnemonicText i) (operandsOf hex i) = some i := by
  cases i with
  | construct n | unsetpx n | getpx n => simp [parseCommand, mnemonicText, operandsOf, oneIndex, numeral_numeralText]
  | begin | alloff | showFrame | destroy | status => simp [parseCommand, mnemonicText, operandsOf, noOperand]
  | setpx idx r g b gc =>
    cases gc <;> simp [parseCommand, mnemonicText, withSuffix, operandsOf, indexAndChannels, threeChannels,
      numeral_numeralText, signedNumeral_channelText]
  | allon r g b gc =>
    cases gc <;> simp [parseCommand, mnemonicText, withSuffix, operandsOf, threeChannels, signedNumeral_channelText]

theorem parseLine_printLine (hex : Bool) {i : Instr} (h : i.wellFormed = true) : parseLine (printLine hex i) = some i :=
  parseLine_written (mnemonicText_solid i) (operandsOf_solid hex i) (parseCommand_written hex i) h

/-- The assembler refuses an operand outside its range. -/
theorem wellFormed_of_parseLine {line : List Char} {i : Instr} (h : parseLine line = some i) : i.wellFormed = true := by
  unfold parseLine at h
  dsimp only at h
  split at h
  · split at h
    · next hw => exact Option.some.inj h ▸ hw
    · cases h
  · cases h

/-- Settles O58: the written line is read back in its parts, and a line that is taken is an encoding. -/
theorem assembledLinesDecodeBack : Obligations.AssembledLinesDecodeBack := by
  refine ⟨fun hex i h => ?_, fun line w h => ?_⟩
  · have hparse := parseLine_printLine hex h
    exact ⟨hparse, by rw [assembleLine, hparse, Option.map_some]⟩
  · obtain ⟨i, hparse, rfl⟩ := Option.map_eq_some_iff.1 h
    have hw := wellFormed_of_parseLine hparse
    exact ⟨i, hparse, hw, decode_encode hw⟩

end Sys2Proof
end

section
/-! PROOFS. The gamma table and the configured parameters, the packet's fields, and the simulation stand-in table (R7, R70, R73 to
R75, R82). -/

namespace Sys2Proof
open Sys2Proof.Machine

/-- Settles O15, whatever the constants are. -/
theorem configurationIsValid : Obligations.ConfigurationIsValid := config_params_valid

/-- Settles O16: below the last entry the running maximum of a rising table is the table. -/
theorem gammaTableAllowsEveryValidTable : Obligations.GammaTableAllowsEveryValidTable := by
  intro f h0 hlast hmono x
  unfold gammaTable
  split
  · next hx => rw [hx, hlast]
  · rw [runningMax_of_mono f h0 hmono _ (Nat.le_of_lt_succ x.isLt), BitVec.ofNat_toNat, BitVec.setWidth_eq]

/-- Settles O19: the default layout appends blue, red and green, and every built packet has its top bits clear. -/
theorem packetFieldsStandWhereStated : Obligations.PacketFieldsStandWhereStated := by
  refine ⟨fun r g b => slots_of_append b r g, fun P r g b gc => ?_⟩
  obtain ⟨h31, h30, -⟩ := encodeColor_built P r g b gc
  exact ⟨h31, h30⟩

/-! The simulation stand-in (R82) -/

/-- The curve of R82 before it is rounded down. -/
noncomputable def gammaCurve (x : ℕ) : ℝ := 1023 * ((x : ℝ) / 1023) ^ (2.8 : ℝ) + 1 / 2

theorem gammaCurve_nonneg (x : ℕ) : 0 ≤ gammaCurve x := by
  unfold gammaCurve
  positivity

theorem gammaCurve_mono {x y : ℕ} (h : x ≤ y) : gammaCurve x ≤ gammaCurve y := by
  unfold gammaCurve
  gcongr

theorem gammaCurve_zero : gammaCurve 0 = 1 / 2 := by
  norm_num [gammaCurve]

theorem gammaCurve_last : gammaCurve 1023 = 1023 + 1 / 2 := by
  norm_num [gammaCurve]

theorem floor_gammaCurve_zero : ⌊gammaCurve 0⌋₊ = 0 := by
  rw [gammaCurve_zero]
  norm_num

theorem floor_gammaCurve_last : ⌊gammaCurve 1023⌋₊ = 1023 := by
  rw [gammaCurve_last, Nat.floor_eq_iff (by norm_num)]
  norm_num

/-- The numbers `1..n` the curve reaches are those up to its rounded value. -/
theorem gammaRefCount_eq_min (x n : ℕ) : gammaRefCount x n = min n ⌊gammaCurve x⌋₊ := by
  induction n with
  | zero => rw [gammaRefCount, Nat.zero_min]
  | succ n ih =>
    have hreach : gammaRefReaches x (n + 1) = true ↔ n + 1 ≤ ⌊gammaCurve x⌋₊ := by
      rw [gammaRefReaches_iff x (n + 1) (Nat.le_add_left 1 n), Nat.le_floor_iff (gammaCurve_nonneg x)]
      rfl
    simp only [gammaRefCount, ih, hreach]
    split <;> omega

/-- Every entry is the curve rounded down: the curve stays below 1024. -/
theorem gammaRef_toNat_eq_floor (x : U10) : (gammaRef x).toNat = ⌊gammaCurve x.toNat⌋₊ := by
  rw [gammaRef_toNat, gammaRefCount_eq_min]
  refine Nat.min_eq_right ?_
  rw [← floor_gammaCurve_last]
  exact Nat.floor_le_floor (gammaCurve_mono (Nat.le_of_lt_succ x.isLt))

/-- Settles O20: the table is the rounded curve, which rises from 0 to 1023. -/
theorem standInTableIsTheCurve : Obligations.StandInTableIsTheCurve := by
  refine ⟨gammaRef_toNat_eq_floor, fun x y h => ?_, BitVec.eq_of_toNat_eq ?_, BitVec.eq_of_toNat_eq ?_⟩
  · rw [gammaRef_toNat_eq_floor, gammaRef_toNat_eq_floor]
    exact Nat.floor_le_floor (gammaCurve_mono h)
  · rw [gammaRef_toNat_eq_floor]
    exact floor_gammaCurve_zero
  · rw [gammaRef_toNat_eq_floor]
    exact floor_gammaCurve_last

end Sys2Proof
end

section
/-! PROOFS. The step and the invariant: what the next step is, and that reset, every command and every clock edge keep the
invariant of R22 to R24 and R26. -/

namespace Sys2Proof
open Sys2Proof.Machine

/-! What the next step is (R8, R34, R124) -/

theorem isIdle_of_idle {s : State} (h : s.seq = .idle) : isIdle s = true := (idle_iff s).2 h

theorem isIdle_of_not_idle {s : State} (h : s.seq ≠ .idle) : isIdle s = false :=
  Bool.eq_false_iff.2 fun hi => h ((idle_iff s).1 hi)

theorem step_of_no_input {s : State} (h : s.host = []) : step s = .next (complete s) := by
  rw [step, takeInput, h]

theorem step_of_edge {s : State} {p : PortsIn} {rest : List HostInput} (h : s.host = .edge p :: rest) :
    step s = .next (clockEdge Config.params p { s with host := rest }) := by
  rw [step, takeInput, h]

/-- An idle block answers the word presented. -/
theorem step_of_word {s : State} {w : Word} {rest : List HostInput} (hs : s.seq = .idle)
    (h : s.host = .command w :: rest) :
    step s = .next (transact Config.params w { s with host := rest }).record := by
  rw [step, takeInput, h]
  simp only [isIdle_of_idle hs, if_true, transact]
  cases decode w with
  | cmd i => exact exec_eq_perform i _
  | illegal why => rfl

/-- A block that holds a command completes it before the word presented. -/
theorem step_of_word_not_idle {s : State} {w : Word} {rest : List HostInput} (hs : s.seq ≠ .idle)
    (h : s.host = .command w :: rest) : step s = .next (complete s) := by
  rw [step, takeInput, h]
  simp only [isIdle_of_not_idle hs, Bool.false_eq_true, if_false]

@[simp] theorem complete_of_idle {s : State} (h : s.seq = .idle) : complete s = s := by
  rw [complete, h]

/-- A command carried to its end leaves the block idle, and takes no input. -/
theorem complete_idle_host (s : State) : (complete s).seq = .idle ∧ (complete s).host = s.host := by
  cases hs : s.seq with
  | idle => rw [complete_of_idle hs]; exact ⟨hs, rfl⟩
  | responding r evs => rw [complete, hs]; exact ⟨rfl, rfl⟩
  | busy w evs =>
    rw [complete, hs]
    cases w with
    | filling job k n v => cases job <;> exact ⟨rfl, rfl⟩
    | sending k j => exact ⟨rfl, rfl⟩
    | latchSetup t => exact ⟨rfl, rfl⟩
    | latchHigh t => exact ⟨rfl, rfl⟩
    | finishing => exact ⟨rfl, rfl⟩

/-- A step is a word answered by an idle block, a clock edge, or the end of the command under way. -/
theorem step_cases (s : State) :
    (∃ w rest, s.seq = .idle ∧ step s = .next (transact Config.params w { s with host := rest }).record) ∨
      (∃ p rest, step s = .next (clockEdge Config.params p { s with host := rest })) ∨ step s = .next (complete s) := by
  cases h : s.host with
  | nil => exact .inr (.inr (step_of_no_input h))
  | cons input rest =>
    cases input with
    | edge p => exact .inr (.inl ⟨p, rest, step_of_edge h⟩)
    | command w =>
      by_cases hs : s.seq = .idle
      · exact .inl ⟨w, rest, hs, step_of_word hs h⟩
      · exact .inr (.inr (step_of_word_not_idle hs h))

/-- Settles O6, input by input. -/
theorem everyStepTakesTheNextInput : Obligations.EveryStepTakesTheNextInput := by
  refine ⟨fun s => ?_, fun s w rest => step_of_word, fun s p rest => step_of_edge, fun s w rest hs h => ?_,
    fun s => step_of_no_input, fun s h hs => ?_⟩
  · rcases step_cases s with ⟨w, rest, -, h⟩ | ⟨p, rest, h⟩ | h <;> exact ⟨_, h⟩
  · exact ⟨step_of_word_not_idle hs h, complete_idle_host s⟩
  · rw [step_of_no_input h, complete_of_idle hs]

/-- Settles O4: the word's transaction is the command it decodes to. -/
theorem stepRunsTheDecodedCommand : Obligations.StepRunsTheDecodedCommand := by
  intro s w rest i hs h hdec
  rw [step_of_word hs h, transact_of_cmd hdec, exec_eq_perform]

/-- Settles O8: the word's transaction is the error outcome. -/
theorem illegalWordAnswersEIllegal : Obligations.IllegalWordAnswersEIllegal := by
  intro s w rest why hs h hdec
  rw [step_of_word hs h, transact_of_illegal hdec]
  rfl

theorem decode_tableWord {nbits w : Nat} {i : Instr} (h : decodeTableWord nbits w = some i) :
    decode (tableWord nbits w) = .cmd i := by
  unfold decodeTableWord at h
  cases hd : decode (tableWord nbits w) with
  | cmd j => rw [hd] at h; cases h; rfl
  | illegal why => rw [hd] at h; cases h

/-- Settles O5: an idle block has nothing to complete, so only the input is placed, and taken again. -/
theorem placedWordRunsNext : Obligations.PlacedWordRunsNext := by
  intro s nbits w i hs hdec
  rw [State.withFetchWord, presentNext, complete_of_idle hs]
  exact stepRunsTheDecodedCommand { s with host := .command (tableWord nbits w) :: s.host } _ s.host i hs rfl
    (decode_tableWord hdec)

/-! Reset (R35) -/

/-- Settles O1: BUF lists nothing at reset, so every read is of a free value. -/
theorem resetLeavesTheStatedState : Obligations.ResetLeavesTheStatedState :=
  ⟨rfl, rfl, rfl, rfl, rfl, rfl, fun _ => rfl, rfl, rfl⟩

/-- Settles O2: LIFE is EMPTY, all levels are low and nothing is listed. -/
theorem resetMeetsTheInvariant : Obligations.ResetMeetsTheInvariant where
  live_iff := by decide
  no_instance _ := rfl
  latchOe_iff := by decide
  spiEn_iff := by decide
  latchQ_iff := by decide
  err_le := by decide
  buf_wf := List.Pairwise.nil
  buf_bound _ _ hi := by cases hi
  packets hl := by cases hl
  seq_ok := trivial

/-! The commands keep the invariant -/

/-- A command without an error is one the table of R83 admits. -/
theorem admits_of_no_error {P : Params} {i : Instr} {s : State} (h : errorOf P i s = none) : admits i s.life = true := by
  by_contra hadm
  rw [errorOf_of_refused (Bool.eq_false_iff.2 hadm)] at h
  cases h

/-- When CONSTRUCT has no error (R84). -/
theorem construct_errorOf_none {P : Params} {n : Nat} {s : State} :
    errorOf P (.construct n) s = none ↔ s.life.live = false ∧ 1 ≤ n ∧ n ≤ P.maxN := by
  cases hl : s.life.live with
  | true => rw [errorOf_of_refused (by rw [admits_construct, hl]; rfl)]; simp
  | false => rw [errorOf_construct hl]; simp

/-- A block that is not busy has the latch low (R24). -/
theorem inv_settled_latch_low {P : Params} {s : State} (h : Inv P s) (hs : Settled s.seq) : s.latchQ = false :=
  h.latch_low hs.not_inPulse

/-- A command settled without a write of LIFE, NLEN or a level: what is left to show. -/
theorem inv_settle_frame {P : Params} {s : State} (h : Inv P s) (hq : s.latchQ = false) {err : BitVec 4} (herr : err.toNat ≤ 4)
    {buf : Memory} (hb : BufOk P (liveEntries s) buf) {x : Sequencer} (hx : Settled x) (tr : List Obs) :
    Inv P { s with err := err, buf := buf, seq := x, trace := tr } :=
  h.keep rfl rfl rfl rfl herr hb (by rw [hx.not_inPulse]; exact iff_of_eq (congrArg (· = true) hq)) (hx.ok P _)

/-- BEGIN keeps the invariant: NLEN and BUF are the same, and the levels are those of READY. -/
theorem inv_begin {P : Params} {s : State} (h : Inv P s) (hl : s.life = .constructed) {x : Sequencer} (hx : Settled x)
    (tr : List Obs) :
    Inv P { s with
      latchQ := false, latchOe := true, spiEn := true, life := .ready, seq := x, trace := tr } := by
  have hlive : s.life.live = true := (live_iff _).2 (.inl hl)
  exact {
    live_iff := iff_of_true rfl (h.live_iff.1 hlive)
    no_instance := fun hn => by cases hn
    latchOe_iff := iff_of_true rfl rfl
    spiEn_iff := iff_of_true rfl rfl
    latchQ_iff := by simp [hx.not_inPulse]
    err_le := h.err_le
    buf_wf := h.buf_wf
    buf_bound := h.buf_bound
    packets := fun _ => h.packets hlive
    seq_ok := hx.ok P _ }

/-- DESTROY keeps the invariant: NLEN is 0, nothing listed, the levels low. -/
theorem inv_destroy {P : Params} {s : State} (h : Inv P s) (hq : s.latchQ = false) {x : Sequencer} (hx : Settled x)
    (tr : List Obs) :
    Inv P { bufForget s with
      nlen := 0, latchOe := false, spiEn := false, life := .destroyed, seq := x, trace := tr } where
  live_iff := by simp [Life.live]
  no_instance _ := rfl
  latchOe_iff := by simp
  spiEn_iff := by simp
  latchQ_iff := by simp [hx.not_inPulse, hq]
  err_le := h.err_le
  buf_wf := List.Pairwise.nil
  buf_bound _ _ hi := by cases hi
  packets hl := by cases hl
  seq_ok := hx.ok P _

/-- A fill of every entry below NLEN with a built packet keeps the buffer's part. -/
theorem bufOk_fill_live {P : Params} {s : State} (h : Inv P s) (hl : s.life.live = true) {v : Packet}
    (hv : builtPacket P v) : BufOk P (liveEntries s) (memFill 0 s.nlen.toNat v s.buf) :=
  h.bufOk.fill _ (by rw [Nat.zero_add]; exact h.instance_le hl) hv

/-- CONSTRUCT's fill completed from entry `k`, with the entries below `k` zero, and its last writes (R84). -/
theorem inv_construct {P : Params} {s : State} (hP : P.Valid) (h : Inv P s) (hq : s.latchQ = false)
    (hl : s.life.live = false) {k n : Nat} (h1 : 1 ≤ n) (hn : n ≤ P.maxN) (hk : k ≤ n)
    (hz : ∀ i, i < k → memFind s.buf i = some 0) {x : Sequencer} (hx : Settled x) (tr : List Obs) :
    Inv P { s with
      buf := memFill k (n - k) 0 s.buf, nlen := BitVec.ofNat 16 n, life := .constructed, seq := x, trace := tr } := by
  have hb : BufOk P (liveEntries s) (memFill k (n - k) 0 s.buf) :=
    h.bufOk.fill _ (by omega) (zero_built P)
  refine h.constructed hP hq n h1 hn hl _ hb.wf hb.bound (fun i hi => ?_) x hx tr
  rw [memFind_memFill]
  split
  · rfl
  · exact hz i (by omega)

/-- Every command, from an idle block, keeps the invariant, whether its response is taken or waits. -/
theorem inv_perform {P : Params} {s : State} (hP : P.Valid) (h : Inv P s) (hs : s.seq = .idle) (i : Instr) {x : Sequencer}
    (hx : Settled x) (tr : List Obs) : Inv P { (perform P i s).state with seq := x, trace := tr } := by
  have hq : s.latchQ = false := inv_settled_latch_low h (.inl hs)
  rcases perform_cases P i s with ⟨e, -, -, hp⟩ | hn
  · rw [hp]
    exact inv_settle_frame h hq (stickyErr_le e h.err_le) h.bufOk hx tr
  have hpixel {idx : Nat} {v : Packet} (hl : s.life.live = true) (hi : idx < s.nlen.toNat) (hv : builtPacket P v) :
      Inv P { bufWrite s idx v with seq := x, trace := tr } :=
    inv_settle_frame h hq h.err_le (h.bufOk.write (Nat.lt_of_lt_of_le hi (h.instance_le hl)) hv) hx tr
  have hframe {v : Packet} (hl : s.life = .ready) (hv : builtPacket P v) :
      Inv P { (frameDone (bufFill s s.nlen.toNat v)).state with seq := x, trace := tr } :=
    h.settle _ (bufOk_fill_live h ((live_iff _).2 (.inr hl)) hv) x hx tr
  cases i with
  | construct n =>
    rw [perform_construct hn]
    obtain ⟨hl, h1, hmax⟩ := construct_errorOf_none.1 hn
    exact inv_construct hP h hq hl h1 hmax (Nat.zero_le n) (fun i hi => absurd hi (Nat.not_lt_zero i)) hx tr
  | begin =>
    rw [(perform_begin hn).1]
    exact inv_begin h (eq_of_beq (admits_of_no_error hn)) hx tr
  | setpx idx r g b gc =>
    obtain ⟨hl, hi⟩ := (pixel_errorOf_none (isPixelCommand_setpx idx r g b gc)).1 hn
    rw [perform_setpx hl hi]
    exact hpixel hl hi (encodeColor_built P r g b gc)
  | unsetpx idx =>
    obtain ⟨hl, hi⟩ := (pixel_errorOf_none (isPixelCommand_unsetpx idx)).1 hn
    rw [perform_unsetpx hl hi]
    exact hpixel hl hi (encodeColor_built P 0 0 0 true)
  | getpx idx =>
    obtain ⟨hl, hi⟩ := (pixel_errorOf_none (isPixelCommand_getpx idx)).1 hn
    rw [perform_getpx hl hi]
    exact inv_settle_frame h hq h.err_le h.bufOk hx tr
  | allon r g b gc =>
    have hl := (frame_errorOf_none (isFrameCommand_allon r g b gc)).1 hn
    rw [perform_allon hl]
    exact hframe hl (encodeColor_built P r g b gc)
  | alloff =>
    have hl := (frame_errorOf_none isFrameCommand_alloff).1 hn
    rw [perform_alloff hl]
    exact hframe hl (zero_built P)
  | showFrame =>
    rw [perform_show ((frame_errorOf_none isFrameCommand_show).1 hn)]
    exact h.settle _ h.bufOk x hx tr
  | destroy =>
    rw [(perform_destroy hn).1]
    exact inv_destroy h hq hx tr
  | status => exact inv_settle_frame h hq h.err_le h.bufOk hx tr

/-- A word keeps the invariant, whether it spells a command or not. -/
theorem inv_transact {P : Params} {s : State} (hP : P.Valid) (h : Inv P s) (hs : s.seq = .idle) (w : Word) {x : Sequencer}
    (hx : Settled x) (tr : List Obs) : Inv P { (transact P w s).state with seq := x, trace := tr } := by
  cases hdec : decode w with
  | cmd i => rw [transact_of_cmd hdec]; exact inv_perform hP h hs i hx tr
  | illegal why =>
    rw [transact_of_illegal hdec]
    exact inv_settle_frame h (inv_settled_latch_low h (.inl hs)) (stickyErr_le _ h.err_le) h.bufOk hx tr

/-- No word touches the hidden state. -/
theorem transact_state_seq (P : Params) (w : Word) (s : State) : (transact P w s).state.seq = s.seq := by
  cases hdec : decode w with
  | cmd i => rw [transact_of_cmd hdec, (perform_outside P i s).2.2]
  | illegal why => rw [transact_of_illegal hdec, raise_state_seq]

theorem inv_transact_record {P : Params} {s : State} (hP : P.Valid) (h : Inv P s) (hs : s.seq = .idle) (w : Word) :
    Inv P (transact P w s).record := by
  have hk := inv_transact hP h hs w (.inl rfl) (transact P w s).record.trace
  rw [← hs, ← transact_state_seq P w s] at hk
  exact hk

/-! The clock edges keep the invariant -/

/-- One inversion for an accepted word: its transaction is done at once, or its fill or its frame starts (R84, R105). -/
theorem accept_cases (P : Params) (w : Word) (s : State) :
    accept P w s = hold (transact P w s) ∨
      (∃ n, s.life.live = false ∧ 1 ≤ n ∧ n ≤ P.maxN ∧ accept P w s = (start s).continue (.filling .construct 0 n 0)) ∨
      (∃ v, s.life = .ready ∧ builtPacket P v ∧
        accept P w s = (start s).continue (.filling .frame 0 s.nlen.toNat v)) ∨
      (s.life = .ready ∧ accept P w s = startFrame P (start s)) := by
  unfold accept
  split
  · next n _ =>
    split
    · exact .inl rfl
    · next hn =>
      obtain ⟨hl, h0, hmax⟩ : ¬ s.life.live = true ∧ ¬ n = 0 ∧ ¬ P.maxN < n := by
        simpa only [not_or] using hn
      exact .inr (.inl ⟨n, Bool.eq_false_iff.2 hl, by omega, by omega, rfl⟩)
  · next r g b gc _ =>
    split
    · next hl => exact .inr (.inr (.inl ⟨_, hl, encodeColor_built P r g b gc, rfl⟩))
    · exact .inl rfl
  · split
    · next hl => exact .inr (.inr (.inl ⟨_, hl, zero_built P, rfl⟩))
    · exact .inl rfl
  · split
    · next hl => exact .inr (.inr (.inr ⟨hl, rfl⟩))
    · exact .inl rfl
  · exact .inl rfl

/-- A command stays or comes under way with the latch low. -/
theorem inv_busy_low {P : Params} {s : State} (h : Inv P s) (hq : s.latchQ = false) {buf : Memory}
    (hb : BufOk P (liveEntries s) buf) {w : Work} {e : List Event} (hp : (Sequencer.busy w e).inPulse = false)
    (hw : w.ok P { s with buf := buf, seq := .busy w e }) : Inv P { s with buf := buf, seq := .busy w e } :=
  h.keep rfl rfl rfl rfl h.err_le hb (by rw [hp]; exact iff_of_eq (congrArg (· = true) hq)) hw

theorem inv_accept {P : Params} {s : State} (hP : P.Valid) (h : Inv P s) (hs : s.seq = .idle) (w : Word) :
    Inv P (accept P w s) := by
  have hq : s.latchQ = false := inv_settled_latch_low h (.inl hs)
  rcases accept_cases P w s with ha | ⟨n, hl, h1, hn, ha⟩ | ⟨v, hl, hv, ha⟩ | ⟨hl, ha⟩ <;> rw [ha]
  · exact inv_transact hP h hs w (.inr ⟨_, _, rfl⟩) _
  · exact inv_busy_low h hq h.bufOk rfl ⟨hl, h1, hn, Nat.zero_le n, rfl, fun i hi => absurd hi (Nat.not_lt_zero i)⟩
  · exact inv_busy_low h hq h.bufOk rfl ⟨hl, rfl, Nat.zero_le _, hv⟩
  · exact h.startFrame hP hl hq []

/-- A write of the fill counts its entry (R84, R100). -/
theorem filling_ok_write {P : Params} {s : State} {job : FillJob} {k n : Nat} {v : Packet}
    (h : (Work.filling job k n v).ok P s) (hk : k < n) (x : Sequencer) :
    (Work.filling job (k + 1) n v).ok P { s with buf := memWrite s.buf k v, seq := x } := by
  cases job with
  | construct =>
    obtain ⟨hl, h1, hn, -, hv, hz⟩ := h
    refine ⟨hl, h1, hn, hk, hv, fun i hi => ?_⟩
    show memFind (memWrite s.buf k v) i = some 0
    rw [memFind_memWrite, hv]
    split
    · rfl
    · exact hz i (by omega)
  | frame =>
    obtain ⟨hl, hn, -, hv⟩ := h
    exact ⟨hl, hn, hk, hv⟩

/-- The fill writes built packets inside the buffer (R22). -/
theorem filling_ok_bounds {P : Params} {s : State} (h : Inv P s) {job : FillJob} {k n : Nat} {v : Packet}
    (hw : (Work.filling job k n v).ok P s) : n ≤ P.maxN ∧ k ≤ n ∧ builtPacket P v := by
  cases job with
  | construct =>
    obtain ⟨-, -, hn, hk, hv, -⟩ := hw
    exact ⟨hn, hk, hv ▸ zero_built P⟩
  | frame =>
    obtain ⟨hl, hn, hk, hv⟩ := hw
    exact ⟨hn ▸ h.instance_le ((live_iff _).2 (.inr hl)), hk, hv⟩

/-- An edge of a busy block keeps the invariant. -/
theorem inv_workEdge {P : Params} {s : State} (hP : P.Valid) (h : Inv P s) (p : PortsIn) {w : Work} {e : List Event}
    (hs : s.seq = .busy w e) : Inv P (workEdge P p w ⟨s, e⟩) := by
  have hw := h.work hs
  cases w with
  | filling job k n v =>
    have hq : s.latchQ = false := h.latch_low (by rw [hs]; rfl)
    obtain ⟨hn, -, hv⟩ := filling_ok_bounds h hw
    simp only [workEdge]
    split
    · next hk => exact inv_busy_low h hq (h.bufOk.write (by omega) hv) rfl (filling_ok_write hw hk _)
    · next hk =>
      cases job with
      | construct =>
        obtain ⟨hl, h1, hn, hkn, -, hz⟩ := hw
        have hc := inv_construct hP h hq hl h1 hn hkn hz (.inr ⟨⟨.ok, 0⟩, e, rfl⟩) s.trace
        rw [Nat.sub_eq_zero_of_le (Nat.not_lt.1 hk)] at hc
        exact hc
      | frame => exact h.startFrame hP hw.1 hq e
  | sending k j =>
    have hq : s.latchQ = false := h.latch_low (by rw [hs]; rfl)
    simp only [workEdge]
    split
    · exact h.byteDone hP hw.1 hq k hw.2 j e
    · exact inv_busy_low h hq h.bufOk rfl hw
  | latchSetup t =>
    have hq : s.latchQ = false := h.latch_low (by rw [hs]; rfl)
    simp only [workEdge]
    split
    · exact h.busy _ h.bufOk _ _ true rfl ⟨hw.1, hP.latchHigh_pos⟩
    · next ht => exact inv_busy_low h hq h.bufOk rfl ⟨hw.1, by omega⟩
  | latchHigh t =>
    simp only [workEdge]
    split
    · exact h.busy _ h.bufOk _ _ false rfl hw.1
    · next ht =>
      have hq : s.latchQ = true := h.latchQ_iff.2 (by rw [hs]; rfl)
      have hb := h.busy _ h.bufOk (.latchHigh (t - 1)) e true rfl ⟨hw.1, by omega⟩
      rw [← hq] at hb
      exact hb
  | finishing =>
    have hq : s.latchQ = false := h.latch_low (by rw [hs]; rfl)
    exact inv_settle_frame h hq h.err_le h.bufOk (.inr ⟨_, _, rfl⟩) _

theorem clockEdge_of_idle {p : PortsIn} {s : State} (hr : p.rstN = true) (hs : s.seq = .idle) (P : Params) :
    clockEdge P p s = if p.cmdValid then accept P p.cmdWord s else s := by
  rw [clockEdge, if_pos hr, hs]

theorem clockEdge_of_busy {p : PortsIn} {s : State} {w : Work} {e : List Event} (hr : p.rstN = true) (hs : s.seq = .busy w e)
    (P : Params) : clockEdge P p s = workEdge P p w ⟨s, e⟩ := by
  rw [clockEdge, if_pos hr, hs]

theorem clockEdge_of_responding {p : PortsIn} {s : State} {r : Response} {e : List Event} (hr : p.rstN = true)
    (hs : s.seq = .responding r e) (P : Params) :
    clockEdge P p s = if p.rspReady then Done.record ⟨{ s with seq := .idle }, r, e⟩ else s := by
  rw [clockEdge, if_pos hr, hs]

/-- A response taken leaves the block idle and the invariant as it was. -/
theorem inv_taken {P : Params} {s : State} (h : Inv P s) {r : Response} {e : List Event} (hs : s.seq = .responding r e) :
    Inv P (Done.record ⟨{ s with seq := .idle }, r, e⟩) :=
  inv_settle_frame h (inv_settled_latch_low h (.inr ⟨r, e, hs⟩)) h.err_le h.bufOk (.inl rfl) _

/-- A clock edge keeps the invariant. -/
theorem inv_clockEdge {P : Params} {s : State} (hP : P.Valid) (h : Inv P s) (p : PortsIn) : Inv P (clockEdge P p s) := by
  cases hr : p.rstN with
  | false =>
    rw [clockEdge_of_reset hr]
    exact resetBlock_inv P _ _ s
  | true =>
    cases hs : s.seq with
    | idle =>
      rw [clockEdge_of_idle hr hs]
      split
      · exact inv_accept hP h hs _
      · exact h
    | busy w e =>
      rw [clockEdge_of_busy hr hs]
      exact inv_workEdge hP h p hs
    | responding r e =>
      rw [clockEdge_of_responding hr hs]
      split
      · exact inv_taken h hs
      · exact h

/-- A command carried to its end at once keeps the invariant. -/
theorem inv_complete {P : Params} {s : State} (hP : P.Valid) (h : Inv P s) : Inv P (complete s) := by
  cases hs : s.seq with
  | idle => rw [complete_of_idle hs]; exact h
  | responding r e => rw [complete, hs]; exact inv_taken h hs
  | busy w e =>
    have hw := h.work hs
    rw [complete, hs]
    cases w with
    | filling job k n v =>
      cases job with
      | construct =>
        obtain ⟨hl, h1, hn, hk, rfl, hz⟩ := hw
        exact inv_construct hP h (h.latch_low (by rw [hs]; rfl)) hl h1 hn hk hz (.inl rfl) _
      | frame =>
        obtain ⟨hn, hk, hv⟩ := filling_ok_bounds h hw
        exact h.settle _ (h.bufOk.fill _ (by omega) hv) .idle (.inl rfl) _
    | sending k j => exact h.settle _ h.bufOk .idle (.inl rfl) _
    | latchSetup t => exact h.settle _ h.bufOk .idle (.inl rfl) _
    | latchHigh t => exact h.settle _ h.bufOk .idle (.inl rfl) _
    | finishing => exact inv_settle_frame h (h.latch_low (by rw [hs]; rfl)) h.err_le h.bufOk (.inl rfl) _

/-- Settles O3: a word, a clock edge and the end of the command under way each keep the invariant. -/
theorem everyStepKeepsTheInvariant : Obligations.EveryStepKeepsTheInvariant := by
  intro s t h hstep
  have hP := config_params_valid
  rcases step_cases s with ⟨w, rest, hs, hn⟩ | ⟨p, rest, hn⟩ | hn <;> rw [hn] at hstep <;> cases hstep
  · exact inv_transact_record hP (h.host rest) hs w
  · exact inv_clockEdge hP (h.host rest) p
  · exact inv_complete hP h

end Sys2Proof
end

section
/-! PROOFS. What a command answers and emits: the response's data, the level events, DESTROY, and the status word (R25, R33, R66,
R86). -/

namespace Sys2Proof
open Sys2Proof.Machine

/-! The response's data (R66) -/

/-- The data of a word's response, by what it decodes to and the status it ends with (R66). -/
def responseData (v : Verdict) (st : Status) (s : State) : BitVec 32 :=
  match v, st with
  | .cmd (.getpx idx), .ok => bufRead s idx
  | .cmd .status, .ok => statusWord s
  | _, _ => 0

theorem responseData_of_error {st : Status} (h : st ≠ .ok) (v : Verdict) (s : State) : responseData v st s = 0 := by
  unfold responseData
  split
  case h_1 | h_2 => exact absurd rfl h
  case h_3 => rfl

/-- Only GETPX and STATUS answer a datum. -/
theorem perform_data (P : Params) (i : Instr) (s : State) :
    (perform P i s).rsp.data = responseData (.cmd i) (perform P i s).rsp.status s := by
  rcases perform_cases P i s with ⟨e, -, hne, hp⟩ | hn
  · rw [hp, raise_rsp, responseData_of_error hne]
  rw [perform_status_ok hn]
  have hframe (hc : IsFrameCommand i) : (perform P i s).rsp.data = 0 := by
    obtain ⟨buf, hp⟩ := perform_frame_eq hc ((frame_errorOf_none hc).1 hn) P
    rw [hp]
    rfl
  cases i with
  | construct n => rw [perform_construct hn]; rfl
  | begin => rw [(perform_begin hn).2.1]; rfl
  | setpx idx r g b gc =>
    obtain ⟨hl, hi⟩ := (pixel_errorOf_none (isPixelCommand_setpx idx r g b gc)).1 hn
    rw [perform_setpx hl hi]; rfl
  | unsetpx idx =>
    obtain ⟨hl, hi⟩ := (pixel_errorOf_none (isPixelCommand_unsetpx idx)).1 hn
    rw [perform_unsetpx hl hi]; rfl
  | getpx idx =>
    obtain ⟨hl, hi⟩ := (pixel_errorOf_none (isPixelCommand_getpx idx)).1 hn
    rw [perform_getpx hl hi]; rfl
  | allon r g b gc => exact hframe (isFrameCommand_allon r g b gc)
  | alloff => exact hframe isFrameCommand_alloff
  | showFrame => exact hframe isFrameCommand_show
  | destroy => rw [(perform_destroy hn).2.1]; rfl
  | status => rfl

/-- Settles O44: one item for each word, and the data of a command, or 0 for an illegal word. -/
theorem everyCommandGetsOneResponse : Obligations.EveryCommandGetsOneResponse := by
  intro P w s
  refine ⟨by rw [record_trace, transact_state_trace], ?_⟩
  cases hdec : decode w with
  | cmd i =>
    rw [transact_of_cmd hdec]
    exact perform_data P i s
  | illegal why => rw [transact_of_illegal hdec]; rfl

/-! The level events (R33) -/

theorem followEvents_append (a b : List Event) : ∀ l : Levels,
    followEvents (a ++ b) l = (followEvents a l).bind (followEvents b) := by
  induction a with
  | nil => intro l; rfl
  | cons e a ih =>
    intro l
    rw [List.cons_append]
    cases e with
    | byte x => exact ih l
    | latch v | latchDrive v | spiEnable v =>
      simp only [followEvents]
      split
      · rfl
      · exact ih _

/-- Bytes change no level. -/
theorem followEvents_bytes {a : List Event} (h : ∀ e ∈ a, ∃ b, e = .byte b) (l : Levels) : followEvents a l = some l := by
  induction a with
  | nil => rfl
  | cons e a ih =>
    obtain ⟨b, rfl⟩ := h e List.mem_cons_self
    exact ih fun e he => h e (List.mem_cons_of_mem _ he)

/-! A write of a level emits its event exactly on a change, so it can be followed. -/

@[simp] theorem followEvents_onChange_latch (l : Levels) (v : Bool) :
    followEvents (onChange l.latchQ v (.latch v)) l = some { l with latchQ := v } := by
  obtain ⟨oe, q, en⟩ := l
  cases q <;> cases v <;> rfl

@[simp] theorem followEvents_onChange_latchDrive (l : Levels) (d : Bool) :
    followEvents (onChange l.latchOe d (.latchDrive d)) l = some { l with latchOe := d } := by
  obtain ⟨oe, q, en⟩ := l
  cases oe <;> cases d <;> rfl

@[simp] theorem followEvents_onChange_spiEnable (l : Levels) (e : Bool) :
    followEvents (onChange l.spiEn e (.spiEnable e)) l = some { l with spiEn := e } := by
  obtain ⟨oe, q, en⟩ := l
  cases en <;> cases e <;> rfl

/-- A latch pulse leaves the latch low, whatever it was (R98). -/
theorem followEvents_pulseEvents (l : Levels) : followEvents (pulseEvents l.latchQ) l = some { l with latchQ := false } := by
  rw [pulseEvents, followEvents_append, followEvents_onChange_latch]
  exact followEvents_onChange_latch { l with latchQ := true } false

/-- A frame's events are bytes and a pulse. -/
theorem followEvents_frameDone (s : State) : followEvents (frameDone s).evs s.levels = some (frameDone s).state.levels := by
  rw [frameDone, followEvents_append, followEvents_bytes (frameBytes_bytes s _)]
  exact followEvents_pulseEvents s.levels

/-- BEGIN writes the three levels one after the other (R85). -/
theorem followEvents_begin {P : Params} {s : State} (h : errorOf P .begin s = none) :
    followEvents (perform P .begin s).evs s.levels = some (perform P .begin s).state.levels := by
  obtain ⟨hstate, -, hevs⟩ := perform_begin h
  rw [hstate, hevs, followEvents_append, followEvents_append]
  have hq := followEvents_onChange_latch s.levels false
  have hoe := followEvents_onChange_latchDrive { s.levels with latchQ := false } true
  have hen := followEvents_onChange_spiEnable { s.levels with latchQ := false, latchOe := true } true
  simp only [State.levels] at hq hoe hen ⊢
  rw [hq, Option.bind_some, hoe, Option.bind_some, hen]

/-- DESTROY lowers the pin drive, then the transport (R86). -/
theorem followEvents_destroy {P : Params} {s : State} (h : errorOf P .destroy s = none) :
    followEvents (perform P .destroy s).evs s.levels = some (perform P .destroy s).state.levels := by
  obtain ⟨hstate, -, hevs⟩ := perform_destroy h
  rw [hstate, hevs, followEvents_append]
  have hoe := followEvents_onChange_latchDrive s.levels false
  have hen := followEvents_onChange_spiEnable { s.levels with latchOe := false } false
  simp only [State.levels] at hoe hen ⊢
  rw [hoe, Option.bind_some, hen]
  rfl

/-- Every command's events are the changes of its levels. -/
theorem followEvents_perform (P : Params) (i : Instr) (s : State) :
    followEvents (perform P i s).evs s.levels = some (perform P i s).state.levels := by
  rcases perform_cases P i s with ⟨e, -, -, hp⟩ | hn
  · rw [hp]; rfl
  have hpixel {idx : Nat} (hc : IsPixelCommand idx i) :
      followEvents (perform P i s).evs s.levels = some (perform P i s).state.levels := by
    obtain ⟨hevs, buf, err, hstate⟩ := perform_pixel_frame hc P s
    rw [hevs, hstate]
    rfl
  have hframe (hc : IsFrameCommand i) :
      followEvents (perform P i s).evs s.levels = some (perform P i s).state.levels := by
    obtain ⟨buf, hp⟩ := perform_frame_eq hc ((frame_errorOf_none hc).1 hn) P
    rw [hp]
    exact followEvents_frameDone { s with buf := buf }
  cases i with
  | construct n => rw [perform_construct hn]; rfl
  | begin => exact followEvents_begin hn
  | setpx idx r g b gc => exact hpixel (isPixelCommand_setpx idx r g b gc)
  | unsetpx idx => exact hpixel (isPixelCommand_unsetpx idx)
  | getpx idx => exact hpixel (isPixelCommand_getpx idx)
  | allon r g b gc => exact hframe (isFrameCommand_allon r g b gc)
  | alloff => exact hframe isFrameCommand_alloff
  | showFrame => exact hframe isFrameCommand_show
  | destroy => exact followEvents_destroy hn
  | status => rfl

/-- Settles O45: the events of the command's meaning, recorded with its response. -/
theorem eventsAreTheLevelChanges : Obligations.EventsAreTheLevelChanges := by
  intro i s
  exact ⟨_, _, _, exec_eq_perform i s, perform_record_trace Config.params i s, followEvents_perform Config.params i s⟩

/-! DESTROY (R86) -/

/-- A level that is lowered gives its event exactly if it was 1. -/
theorem onChange_false (b : Bool) (e : Event) : onChange b false e = if b = true then [e] else [] := by
  cases b <;> rfl

/-- With nothing listed every entry reads as a free value (R20). -/
theorem bufRead_of_nothing_listed {s : State} (h : s.buf = []) (i : Nat) :
    bufRead s i = Config.unspecifiedPacket s.freeIx i := by
  rw [bufRead, h]
  rfl

/-- The table of R83 admits DESTROY in CONSTRUCTED and READY. -/
theorem admits_destroy (l : Life) : admits .destroy l = l.live := by
  cases l <;> rfl

/-- Settles O23: the encoding by its row, the end of CONSTRUCTED and READY, and the refusal elsewhere. -/
theorem destroyEndsTheInstance : Obligations.DestroyEndsTheInstance := by
  refine ⟨fun w hop hz => ?_, fun s => ⟨fun hlife => ?_, fun hlife => ?_⟩⟩
  · exact decode_of_row (i := .destroy) hop ((noOperands_eq_true_iff w).2 hz)
  · have hnone : errorOf Config.params .destroy s = none :=
      if_pos (by rw [admits_destroy]; exact (live_iff _).2 hlife)
    obtain ⟨hstate, hrsp, hevs⟩ := perform_destroy hnone
    refine ⟨_, exec_eq_perform _ s, ?_, bufRead_of_nothing_listed ?_, ?_⟩
    · rw [Done.record, hstate, hrsp, hevs, onChange_false, onChange_false]
      rfl
    · rw [record_buf, hstate]
      rfl
    · rw [record_freeIx, hstate]
      exact Nat.succ_ne_self s.freeIx
  · exact exec_of_refused (by rw [admits_destroy]; exact (not_live_iff _).2 hlife)

/-! The status word (R25) -/

/-- Settles O25: each field stands above the ones appended after it. -/
theorem statusWordLayout : Obligations.StatusWordLayout := by
  intro s
  have hbit (b : Bool) : (BitVec.ofBool b).getLsbD 0 = b := by cases b <;> rfl
  refine ⟨?_, ?_, ?_, ?_, ?_, statusWord_err s, ?_, BitVec.extractLsb'_append_eq_left⟩ <;> unfold statusWord
  · iterate 7 rw [BitVec.extractLsb'_append_eq_of_add_le (by omega)]
    cases s.life <;> rfl
  · simp only [BitVec.getLsbD_append]
    exact hbit s.latchOe
  · simp only [BitVec.getLsbD_append]
    exact hbit s.latchQ
  · simp only [BitVec.getLsbD_append]
    exact hbit s.spiEn
  · iterate 3 rw [BitVec.extractLsb'_append_eq_of_add_le (by omega)]
    exact BitVec.extractLsb'_append_eq_left
  · rw [BitVec.extractLsb'_append_eq_of_add_le (by omega)]
    exact BitVec.extractLsb'_append_eq_left

end Sys2Proof
end

section
/-! PROOFS. The cycle-level machine: its refinement of the transaction model, reset at any edge, the handshakes, the bytes of a
frame, the latch timing, and the edges a command needs (R8, R30 to R32, R105, R127, R128, R138, R139). -/

namespace Sys2Proof
open Sys2Proof.Machine

/-! The refinement (R8) -/

/-- A block that is busy with a command is that command's run, under way. -/
theorem continue_of_busy {s : State} {w : Work} {e : List Event} (hs : s.seq = .busy w e) : Run.continue w ⟨s, e⟩ = s := by
  rw [Run.continue, ← hs]

theorem runWords_append (P : Params) (a b : List Word) (s : State) :
    runWords P (a ++ b) s = runWords P b (runWords P a s) := by
  induction a generalizing s with
  | nil => rfl
  | cons w a ih => exact ih _

/-- One edge without reset completes to the transaction of the word it accepts, if any. -/
theorem complete_clockEdge {p : PortsIn} (hr : p.rstN = true) (P : Params) (s : State) :
    complete (clockEdge P p s) = runWords P (if accepts p s then [p.cmdWord] else []) (complete s) := by
  unfold accepts
  cases hs : s.seq with
  | idle =>
    rw [clockEdge_of_idle hr hs, complete_of_idle hs, isIdle_of_idle hs, hr]
    cases p.cmdValid with
    | false => exact complete_of_idle hs
    | true => exact complete_accept P p.cmdWord s hs
  | busy w e =>
    rw [clockEdge_of_busy hr hs, complete_workEdge, continue_of_busy hs, isIdle_of_not_idle (by rw [hs]; exact nofun),
      Bool.and_false]
    rfl
  | responding r e =>
    rw [clockEdge_of_responding hr hs, isIdle_of_not_idle (by rw [hs]; exact nofun), Bool.and_false]
    split
    · rw [complete_of_idle rfl]
      show _ = complete s
      rw [complete, hs]
    · rfl

/-- Settles O46, edge by edge. -/
theorem clockEdgesRefineTransactions : Obligations.ClockEdgesRefineTransactions := by
  intro P ps
  induction ps with
  | nil => intro s _; rfl
  | cons p ps ih =>
    intro s hr
    rw [runEdges, acceptedWords, runWords_append, ih _ fun q hq => hr q (List.mem_cons_of_mem _ hq),
      complete_clockEdge (hr p List.mem_cons_self)]

/-! What is presented to the transport (R31, R105) -/

theorem txPresented_of_sending {s : State} {k : Nat} {j : Fin 4} {e : List Event} (hs : s.seq = .busy (.sending k j) e)
    (hen : s.spiEn = true) : txPresented s = some (wireByte (bufRead s k) j) := by
  rw [txPresented, hs]
  exact if_pos hen

/-- A byte is presented only while one is being sent, with the transport enabled. -/
theorem sending_of_txPresented {s : State} {b : Byte} (h : txPresented s = some b) :
    s.spiEn = true ∧ ∃ k j e, s.seq = .busy (.sending k j) e := by
  unfold txPresented at h
  split at h
  · next k j e hs =>
    split at h
    · next hen => exact ⟨hen, k, j, e, hs⟩
    · cases h
  · cases h

theorem txPresented_of_not_sending {s : State} (h : ∀ k j e, s.seq ≠ .busy (.sending k j) e) : txPresented s = none := by
  cases hb : txPresented s with
  | none => rfl
  | some b =>
    obtain ⟨-, k, j, e, hs⟩ := sending_of_txPresented hb
    exact absurd hs (h k j e)

/-- Settles O53: only a block that sends presents a byte, and the invariant ties that to READY and its levels. -/
theorem bytesOnlyWhileEnabled : Obligations.BytesOnlyWhileEnabled := by
  intro P s b h
  obtain ⟨hen, k, j, e, hs⟩ := sending_of_txPresented h
  refine ⟨hen, fun hinv => ?_⟩
  have hl := hinv.spiEn_iff.1 hen
  exact ⟨hl, hinv.latchOe_iff.2 hl, hinv.latch_low (by rw [hs]; rfl)⟩

/-- An edge at which the transport has not completed the byte presented changes nothing (R31(b)). -/
theorem clockEdge_of_byte_waiting {p : PortsIn} {s : State} {b : Byte} (hr : p.rstN = true) (hd : p.txDone = false)
    (hb : txPresented s = some b) (P : Params) : clockEdge P p s = s := by
  obtain ⟨-, k, j, e, hs⟩ := sending_of_txPresented hb
  rw [clockEdge_of_busy hr hs, workEdge, if_neg (by rw [hd]; exact fun h => Bool.false_ne_true h.1)]
  exact continue_of_busy hs

/-- An edge at which the transport completes the byte presented. -/
theorem clockEdge_of_byte_done {p : PortsIn} {s : State} {k : Nat} {j : Fin 4} {e : List Event} (hr : p.rstN = true)
    (hd : p.txDone = true) (hs : s.seq = .busy (.sending k j) e) (hen : s.spiEn = true) (P : Params) :
    clockEdge P p s = byteDone P k j ⟨s, e⟩ := by
  rw [clockEdge_of_busy hr hs, workEdge, if_pos ⟨hd, hen⟩]

/-! What a completed byte does, by the counters (R105(b), (c)) -/

theorem byteDone_of_lt (P : Params) (k : Nat) {j : Fin 4} (hj : j.val < 3) (r : Run) :
    byteDone P k j r = (r.emit [.byte (wireByte (bufRead r.state k) j)]).continue (.sending k (j + 1)) := by
  unfold byteDone
  exact if_pos hj

theorem byteDone_succ_last (P : Params) (k : Nat) (r : Run) :
    byteDone P (k + 1) 3 r = (r.emit [.byte (wireByte (bufRead r.state (k + 1)) 3)]).continue (.sending k 0) := rfl

theorem byteDone_zero_last (P : Params) (r : Run) :
    byteDone P 0 3 r = startLatch P (r.emit [.byte (wireByte (bufRead r.state 0) 3)]) := rfl

/-- After the last byte none is presented. -/
theorem txPresented_startLatch (P : Params) (r : Run) : txPresented (startLatch P r) = none := by
  unfold startLatch
  split <;> rfl

/-- Settles O52: the byte presented, then the edge without and with `tx_done`, by the counters. -/
theorem bytesGoOutOneByOne : Obligations.BytesGoOutOneByOne := by
  intro P p s k j e hs hen hr
  have htx := txPresented_of_sending hs hen
  refine ⟨htx, fun hd => clockEdge_of_byte_waiting hr hd htx P, fun hd hj => ?_, fun hd hj hk => ?_, fun hd hj hk => ?_⟩ <;>
    rw [clockEdge_of_byte_done hr hd hs hen]
  · rw [byteDone_of_lt P k hj]
    rfl
  · obtain rfl : j = 3 := Fin.ext hj
    obtain ⟨k, rfl⟩ := Nat.exists_eq_succ_of_ne_zero hk.ne'
    rw [byteDone_succ_last]
    rfl
  · obtain rfl : j = 3 := Fin.ext hj
    subst hk
    rw [byteDone_zero_last]
    refine ⟨txPresented_startLatch P _, fun hsetup => ?_, fun hsetup hq => ?_⟩
    · rw [startLatch, if_neg (by omega)]
      rfl
    · rw [startLatch, if_pos hsetup, Run.continue, setLatchQ_evs, emit_state, hq, onChange_rise, emit_evs, List.append_assoc]
      rfl

/-! Reset (R127, R128) -/

/-- The events of the levels that reset lowers, in the order of R127. -/
theorem releaseAll_evs (s : State) : (start s).releaseAll.evs =
    (if s.latchOe = true then [.latchDrive false] else []) ++ (if s.latchQ = true then [.latch false] else []) ++
      (if s.spiEn = true then [.spiEnable false] else []) := by
  rw [← onChange_false, ← onChange_false, ← onChange_false]
  rfl

/-- Reset raises no level. -/
theorem ne_latch_rise_of_mem_releaseAll {s : State} {e : Event} (h : e ∈ (start s).releaseAll.evs) : e ≠ .latch true := by
  rw [releaseAll_evs] at h
  simp only [List.mem_append, List.mem_ite_nil_right, List.mem_singleton] at h
  rcases h with (⟨-, rfl⟩ | ⟨-, rfl⟩) | ⟨-, rfl⟩ <;> exact nofun

/-- The one item a reset edge adds to the observation. -/
theorem clockEdge_reset_trace {p : PortsIn} (h : p.rstN = false) (P : Params) (s : State) :
    (clockEdge P p s).trace =
      s.trace ++ [.reset (abandonedEvents p s) (byteCut p s) (start s).releaseAll.evs] := by
  rw [clockEdge_of_reset h]
  rfl

theorem byteCut_of_no_byte {s : State} (h : txPresented s = none) (p : PortsIn) : byteCut p s = false := by
  rw [byteCut, h]
  rfl

/-- With no byte in transfer a busy block abandons the events so far. -/
theorem abandonedEvents_of_no_byte {s : State} {w : Work} {e : List Event} (hs : s.seq = .busy w e)
    (h : txPresented s = none) (p : PortsIn) : abandonedEvents p s = e := by
  rw [abandonedEvents, hs]
  dsimp only
  rw [h]

/-- A byte in transfer either completes, or is cut short, which it is not if `tx_done` is 1 at the edge (R128(b)). -/
theorem abandoned_of_byte {s : State} {w : Work} {e : List Event} {b : Byte} (hs : s.seq = .busy w e)
    (h : txPresented s = some b) (p : PortsIn) :
    (abandonedEvents p s = e ++ [.byte b] ∧ byteCut p s = false) ∨
      (abandonedEvents p s = e ∧ byteCut p s = true ∧ p.txDone = false) := by
  rw [abandonedEvents, hs, byteCut]
  dsimp only
  rw [h]
  cases hf : byteFinished p s with
  | true => exact .inl ⟨rfl, rfl⟩
  | false => exact .inr ⟨rfl, rfl, (Bool.or_eq_false_iff.1 hf).1⟩

/-- Settles O48: the reset item with what is abandoned, by the byte in transfer. -/
theorem resetAbandonsTheCommand : Obligations.ResetAbandonsTheCommand := by
  intro P p s w e hr hs
  exact ⟨_, _, _, clockEdge_reset_trace hr P s,
    fun h => ⟨abandonedEvents_of_no_byte hs h p, byteCut_of_no_byte h p⟩, fun b h => abandoned_of_byte hs h p,
    fun _ => ne_latch_rise_of_mem_releaseAll⟩

/-- Settles O47: the reset state with the item added, and what is abandoned where no command is under way. -/
theorem resetEdgeGivesTheResetState : Obligations.ResetEdgeGivesTheResetState := by
  intro P p s hr
  refine ⟨⟨_, abandonedEvents p s, byteCut p s, clockEdge_of_reset hr P s, ?_, fun hs => ?_, fun r e hs => ?_,
    bufRead_of_nothing_listed rfl, Nat.succ_ne_self s.freeIx⟩, rfl, rfl, rfl⟩
  · rw [← releaseAll_evs]
    rfl
  · exact ⟨by rw [abandonedEvents, hs], byteCut_of_no_byte (txPresented_of_not_sending (by rw [hs]; exact nofun)) p⟩
  · exact ⟨by rw [abandonedEvents, hs], byteCut_of_no_byte (txPresented_of_not_sending (by rw [hs]; exact nofun)) p⟩

/-! The handshakes (R30) -/

/-- Settles O49: only an idle block is ready, and only its edges look at the command port. -/
theorem busyBlockAcceptsNothing : Obligations.BusyBlockAcceptsNothing := by
  intro P p s v w
  refine ⟨idle_iff s, fun hs => ?_⟩
  unfold clockEdge
  cases hseq : s.seq with
  | idle => exact absurd hseq hs
  | busy work e => rfl
  | responding r e => rfl

/-- Settles O50: the response is presented, and the edge looks at `rsp_ready` only. -/
theorem responseIsHeldUntilTaken : Obligations.ResponseIsHeldUntilTaken := by
  intro P p s r e hr hs
  have hedge := clockEdge_of_responding hr hs P
  refine ⟨?_, fun h => ?_, fun h => ?_⟩
  · show rspPresented s = _
    rw [rspPresented, hs]
  · rw [hedge, h]
    rfl
  · rw [hedge, h]
    exact ⟨rfl, rfl⟩

/-! The latch timing (R32) -/

/-- The block is in the latch timing of a frame, `m` edges before its response is presented. -/
inductive LatchPhase (P : Params) (m : Nat) (s : State) : Prop where
  /-- the setup time before the pulse -/
  | setup (t : Nat) (e : List Event) (seq : s.seq = .busy (.latchSetup t) e) (pos : 1 ≤ t)
      (left : m = t + P.latchHigh + 1) (low : s.latchQ = false)
  /-- the pulse -/
  | high (t : Nat) (e : List Event) (seq : s.seq = .busy (.latchHigh t) e) (pos : 1 ≤ t) (le : t ≤ P.latchHigh)
      (left : m = t + 1) (high : s.latchQ = true)
  /-- the cycle in which the latch is low again -/
  | finishing (e : List Event) (seq : s.seq = .busy .finishing e) (left : m = 1) (low : s.latchQ = false)
  /-- the response is presented -/
  | presented (e : List Event) (seq : s.seq = .responding ⟨.ok, 0⟩ e) (left : m = 0) (low : s.latchQ = false)

/-- The timing starts with the setup time, or with the pulse where there is none. -/
theorem latchPhase_startLatch {P : Params} (hP : 1 ≤ P.latchHigh) {r : Run} (hq : r.state.latchQ = false) :
    LatchPhase P (P.latchSetup + P.latchHigh + 1) (startLatch P r) := by
  unfold startLatch
  split
  · next h => exact .high _ _ rfl hP le_rfl (by omega) rfl
  · next h => exact .setup _ _ rfl (by omega) rfl hq

/-- Each edge without reset counts one cycle of the timing. -/
theorem LatchPhase.edge {P : Params} (hP : 1 ≤ P.latchHigh) {m : Nat} {s : State} (h : LatchPhase P (m + 1) s) {p : PortsIn}
    (hr : p.rstN = true) : LatchPhase P m (clockEdge P p s) := by
  cases h with
  | setup t e hs hpos hm hq =>
    rw [clockEdge_of_busy hr hs, workEdge]
    split
    · exact .high _ _ rfl hP le_rfl (by omega) rfl
    · exact .setup _ _ rfl (by omega) (by omega) hq
  | high t e hs hpos hle hm hq =>
    rw [clockEdge_of_busy hr hs, workEdge]
    split
    · exact .finishing _ rfl (by omega) rfl
    · exact .high _ _ rfl (by omega) (by omega) (by omega) hq
  | finishing e hs hm hq =>
    rw [clockEdge_of_busy hr hs, workEdge]
    exact .presented _ rfl (by omega) hq
  | presented e hs hm => exact absurd hm (Nat.succ_ne_zero m)

theorem LatchPhase.edges {P : Params} (hP : 1 ≤ P.latchHigh) {m : Nat} {s : State} (ps : List PortsIn)
    (h : LatchPhase P (m + ps.length) s) (hr : ∀ q ∈ ps, q.rstN = true) : LatchPhase P m (runEdges P ps s) := by
  induction ps generalizing s with
  | nil => exact h
  | cons p ps ih =>
    exact ih (h.edge hP (hr p List.mem_cons_self)) fun q hq => hr q (List.mem_cons_of_mem _ hq)

/-- The latch is high in the cycles of the pulse, and only in them. -/
theorem LatchPhase.latchQ_eq {P : Params} {m : Nat} {s : State} (h : LatchPhase P m s) :
    s.latchQ = decide (2 ≤ m ∧ m ≤ P.latchHigh + 1) := by
  cases h with
  | setup t e hs hpos hm hq => rw [hq, eq_comm, decide_eq_false_iff_not]; omega
  | high t e hs hpos hle hm hq => rw [hq, eq_comm, decide_eq_true_iff]; omega
  | finishing e hs hm hq => rw [hq, eq_comm, decide_eq_false_iff_not]; omega
  | presented e hs hm hq => rw [hq, eq_comm, decide_eq_false_iff_not]; omega

/-- The response is presented when no edge is left, and not before. -/
theorem LatchPhase.rspPresented_eq {P : Params} {m : Nat} {s : State} (h : LatchPhase P m s) :
    rspPresented s = if m = 0 then some ⟨.ok, 0⟩ else none := by
  cases h with
  | setup t e hs hpos hm hq => rw [rspPresented, hs, if_neg (by omega)]
  | high t e hs hpos hle hm hq => rw [rspPresented, hs, if_neg (by omega)]
  | finishing e hs hm hq => rw [rspPresented, hs, if_neg (by omega)]
  | presented e hs hm hq => rw [rspPresented, hs, if_pos hm]

/-- Settles O51: the last byte's edge starts the timing, which counts down by one each edge. -/
theorem latchPulseHasItsTiming : Obligations.LatchPulseHasItsTiming := by
  intro P p ps s e hP hs hen hq hr hd hps t
  have hphase (m : Nat) (hm : m + ps.length = P.latchSetup + P.latchHigh + 1) : LatchPhase P m t := by
    refine LatchPhase.edges hP ps ?_ hps
    rw [hm, clockEdge_of_byte_done hr hd hs hen]
    exact latchPhase_startLatch hP hq
  have hlevels {m : Nat} (hm : m + ps.length = P.latchSetup + P.latchHigh + 1) :
      t.latchQ = decide (2 ≤ m ∧ m ≤ P.latchHigh + 1) ∧ rspPresented t = if m = 0 then some ⟨.ok, 0⟩ else none :=
    ⟨(hphase m hm).latchQ_eq, (hphase m hm).rspPresented_eq⟩
  refine ⟨fun hlen => ?_, fun hlo hhi => ?_, fun hlen => ?_, fun hlen => ?_⟩
  · obtain ⟨h1, h2⟩ := hlevels (m := P.latchSetup + P.latchHigh + 1 - ps.length) (by omega)
    exact ⟨by rw [h1, decide_eq_false_iff_not]; omega, by rw [h2, if_neg (by omega)]⟩
  · obtain ⟨h1, h2⟩ := hlevels (m := P.latchSetup + P.latchHigh + 1 - ps.length) (by omega)
    exact ⟨by rw [h1, decide_eq_true_iff]; omega, by rw [h2, if_neg (by omega)]⟩
  · exact hlevels (m := 1) (by omega)
  · exact hlevels (m := 0) (by omega)

/-! The edges a command needs (R138, R139) -/

/-- A command under way is under way after any edges without reset that are fewer than its work left. -/
theorem busy_before_workLeft {P : Params} (hP : P.Valid) (ps : List PortsIn) (hr : ∀ q ∈ ps, q.rstN = true) {s : State}
    {w : Work} {e : List Event} (h : Inv P s) (hs : s.seq = .busy w e) (hlen : ps.length < workLeft P s w) :
    ∃ w' e', (runEdges P ps s).seq = .busy w' e' := by
  induction ps generalizing s w e with
  | nil => exact ⟨w, e, hs⟩
  | cons p ps ih =>
    have hrp := hr p List.mem_cons_self
    have hrs : ∀ q ∈ ps, q.rstN = true := fun q hq => hr q (List.mem_cons_of_mem _ hq)
    rw [List.length_cons] at hlen
    rcases workLeft_edge h p hs hrp with ⟨h1, -⟩ | ⟨w', e', hs', hw'⟩ | ⟨-, -, hsame⟩
    · omega
    · exact ih hrs (inv_clockEdge hP h p) hs' (by omega)
    · rw [runEdges, hsame]
      exact ih hrs h hs (by omega)

/-- With every byte completed at once the response is presented when the work left is done. -/
theorem responding_at_workLeft {P : Params} (hP : P.Valid) (ps : List PortsIn)
    (hr : ∀ q ∈ ps, q.rstN = true ∧ q.txDone = true) {s : State} {w : Work} {e : List Event} (h : Inv P s)
    (hs : s.seq = .busy w e) (hlen : ps.length = workLeft P s w) :
    ∃ e', (runEdges P ps s).seq = .responding ⟨.ok, 0⟩ e' := by
  induction ps generalizing s w e with
  | nil =>
    have := workLeft_pos P s w
    rw [List.length_nil] at hlen
    omega
  | cons p ps ih =>
    obtain ⟨hrp, hdp⟩ := hr p List.mem_cons_self
    rw [List.length_cons] at hlen
    rcases workLeft_edge h p hs hrp with ⟨h1, hdone⟩ | ⟨w', e', hs', hw'⟩ | ⟨hd, -, -⟩
    · obtain rfl : ps = [] := List.eq_nil_of_length_eq_zero (by omega)
      exact hdone
    · exact ih (fun q hq => hr q (List.mem_cons_of_mem _ hq)) (inv_clockEdge hP h p) hs' (by omega)
    · rw [hdp] at hd
      cases hd

/-- While the transport does not complete the byte presented nothing changes (R139). -/
theorem runEdges_of_byte_waiting {P : Params} {s : State} {b : Byte} (hb : txPresented s = some b) (ps : List PortsIn)
    (hr : ∀ q ∈ ps, q.rstN = true ∧ q.txDone = false) : runEdges P ps s = s := by
  induction ps with
  | nil => rfl
  | cons p ps ih =>
    obtain ⟨hrp, hdp⟩ := hr p List.mem_cons_self
    rw [runEdges, clockEdge_of_byte_waiting hrp hdp hb]
    exact ih fun q hq => hr q (List.mem_cons_of_mem _ hq)

/-! An endless stream of edges without reset -/

theorem inv_stateAt {P : Params} {s : State} (hP : P.Valid) (h : Inv P s) (p : Nat → PortsIn) (n : Nat) :
    Inv P (stateAt P p s n) := by
  induction n with
  | zero => exact h
  | succ n ih => exact inv_clockEdge hP ih (p n)

section Stream
variable {P : Params} {s : State} {p : Nat → PortsIn} (hr : ∀ n, (p n).rstN = true)
include hr

/-- A byte presented is still there after edges that do not complete it. -/
theorem stateAt_of_byte_waiting {n : Nat} {b : Byte} (hb : txPresented (stateAt P p s n) = some b) {m : Nat} (hm : n ≤ m)
    (hd : ∀ i, n ≤ i → i < m → (p i).txDone = false) : stateAt P p s m = stateAt P p s n := by
  induction m, hm using Nat.le_induction with
  | base => rfl
  | succ m hm ih =>
    have hsame := ih fun i h1 h2 => hd i h1 (Nat.lt_succ_of_lt h2)
    rw [stateAt, hsame]
    exact clockEdge_of_byte_waiting (hr m) (hd m hm (Nat.lt_succ_self m)) hb P

/-- Under fairness a busy block comes to an edge that does not leave it waiting for the transport, in the state it is in. -/
theorem exists_edge_not_waiting (hfair : transportFair P p s) (n : Nat) :
    ∃ m, stateAt P p s m = stateAt P p s n ∧
      ((p m).txDone = true ∨ txPresented (stateAt P p s m) = none) := by
  cases hb : txPresented (stateAt P p s n) with
  | none => exact ⟨n, rfl, .inr hb⟩
  | some b =>
    have hex := hfair n b hb
    obtain ⟨hn, hd⟩ := Nat.find_spec hex
    refine ⟨Nat.find hex, stateAt_of_byte_waiting hr hb hn fun i h1 h2 => ?_, .inl hd⟩
    exact Bool.eq_false_iff.2 fun h => Nat.find_min hex h2 ⟨h1, h⟩

/-- Under fairness the work left runs out, so the response is presented. -/
theorem responding_of_fair (hP : P.Valid) (h : Inv P s) (hfair : transportFair P p s) {n : Nat} {w : Work} {e : List Event}
    (hs : (stateAt P p s n).seq = .busy w e) : ∃ m e', (stateAt P p s m).seq = .responding ⟨.ok, 0⟩ e' := by
  induction hk : workLeft P (stateAt P p s n) w using Nat.strong_induction_on generalizing n w e with
  | _ k ih =>
    obtain ⟨m, hsame, hgo⟩ := exists_edge_not_waiting hr hfair n
    rw [← hsame] at hs hk
    rcases workLeft_edge (inv_stateAt hP h p m) (p m) hs (hr m) with ⟨-, e', hdone⟩ | ⟨w', e', hs', hw'⟩ | ⟨hd, ⟨b, hb⟩, -⟩
    · exact ⟨m + 1, e', hdone⟩
    · exact ih (workLeft P (stateAt P p s (m + 1)) w') (by rw [stateAt]; omega) (n := m + 1) hs' rfl
    · rcases hgo with hd' | hb'
      · rw [hd] at hd'
        cases hd'
      · rw [hb] at hb'
        cases hb'

end Stream

/-- Settles O54: the work left runs out under fairness, at once where every byte completes at once, and never otherwise. -/
theorem commandsEndUnderFairness : Obligations.CommandsEndUnderFairness := by
  intro P s w e hP h hs
  refine ⟨fun p hr hfair => responding_of_fair hr hP h hfair (n := 0) hs, fun ps hps => ⟨fun hlen => ?_, fun hlen => ?_⟩,
    fun ps b hb hps => runEdges_of_byte_waiting hb ps hps⟩
  · exact busy_before_workLeft hP ps (fun q hq => (hps q hq).1) h hs hlen
  · exact responding_at_workLeft hP ps hps h hs hlen

/-- Settles O55: at its start a frame's work left is one edge more than the bound. -/
theorem framesTakeAtLeastTheirCycles : Obligations.FramesTakeAtLeastTheirCycles := by
  intro P ps s k e hP h hs hk hr hlen
  have hleft : workLeft P s (.sending k 0) = 4 * k + 4 + P.latchSetup + P.latchHigh + 1 := rfl
  obtain ⟨w', e', hbusy⟩ := busy_before_workLeft hP ps hr h hs (by omega)
  rw [rspPresented, hbusy]

end Sys2Proof
end

section
/-! PROOFS. The chain observer: what it displays after a frame command, and that the display changes at a latch pulse only (R44,
R128(d), R135, R136). -/

namespace Sys2Proof
open Sys2Proof.Machine

/-! A frame (R44, R135) -/

/-- After some events and a pulse the chain displays what they shifted in. -/
theorem events_pulse_display (n : Nat) (c : Chain) (evs : List Event) :
    (c.events n (evs ++ [.latch true, .latch false])).display = (c.events n evs).regs := by
  rw [events_append]
  rfl

/-- A frame leaves the buffer in the registers of a chain of its length. -/
theorem events_frameBytes_regs {s : State} {n : Nat} {c : Chain} (h : c.regs.length = n) :
    (c.events n (frameBytes s n)).regs = packetsFrom s 0 n := by
  rw [events_frameBytes s n h, h]
  exact List.take_left' (packetsFrom_length s n 0)

/-- A frame leaves free values in the registers of a chain of another length. -/
theorem events_frameBytes_regs_of_other_length {s : State} {n : Nat} {c : Chain} (h : c.regs.length ≠ n) (hn : 1 ≤ n) :
    ∃ k, c.freeIx ≤ k ∧
      (c.events n (frameBytes s n)).regs = (List.range c.regs.length).map (Config.unknownRegister k) := by
  have hne : frameBytes s n ≠ [] := List.ne_nil_of_length_pos (by rw [frameBytes_length]; omega)
  obtain ⟨k, hk, hregs⟩ := events_bytes_of_other_length _ h (frameBytes_bytes s n) hne
  exact ⟨k, hk, by rw [hregs]⟩

@[simp] theorem packetsFrom_withTrace (tr : List Obs) (s : State) (k n : Nat) :
    packetsFrom (withTrace tr s) k n = packetsFrom s k n :=
  packetsFrom_congr (bufRead_withTrace tr s) n k

/-- Settles O56: the frame's bytes fill the registers, and its pulse displays them. -/
theorem chainDisplaysTheBuffer : Obligations.ChainDisplaysTheBuffer := by
  intro i s c hi hlife hq
  obtain ⟨buf, hp⟩ := perform_frame_eq hi hlife Config.params
  refine ⟨_, _, exec_of_frameDone hp hq, rfl, fun hlen => ?_, fun hlen hn => ?_⟩
  · rw [Chain.observe, events_pulse_display]
    exact (events_frameBytes_regs hlen).trans (packetsFrom_withTrace _ { s with buf := buf } 0 s.nlen.toNat).symm
  · obtain ⟨k, hk, hregs⟩ := events_frameBytes_regs_of_other_length (s := { s with buf := buf }) hlen hn
    exact ⟨k, hk, by rw [Chain.observe, events_pulse_display]; exact hregs⟩

/-! Outside a pulse (R136) -/

theorem events_display {evs : List Event} (h : ∀ e ∈ evs, e ≠ .latch false) (n : Nat) (c : Chain) :
    (c.events n evs).display = c.display := by
  induction evs generalizing c with
  | nil => rfl
  | cons e evs ih =>
    have htail := ih (fun x hx => h x (List.mem_cons_of_mem _ hx)) (c.event n e)
    exact htail.trans (event_display n c (h e List.mem_cons_self))

/-- An event of a reset that ends no pulse is seen as an event of a command. -/
theorem cutEvent_eq_event {e : Event} (h : e ≠ .latch false) (n : Nat) (c : Chain) : c.cutEvent n e = c.event n e := by
  cases e with
  | latch v =>
    cases v with
    | true => rfl
    | false => exact absurd rfl h
  | byte b => rfl
  | latchDrive d => rfl
  | spiEnable v => rfl

theorem foldl_cutEvent_eq_events {evs : List Event} (h : ∀ e ∈ evs, e ≠ .latch false) (n : Nat) (c : Chain) :
    evs.foldl (Chain.cutEvent n) c = c.events n evs := by
  induction evs generalizing c with
  | nil => rfl
  | cons e evs ih =>
    rw [List.foldl_cons, cutEvent_eq_event (h e List.mem_cons_self), ih fun x hx => h x (List.mem_cons_of_mem _ hx)]
    rfl

/-- A byte cut short leaves the display (R128(b)). -/
theorem abandoned_display {evs : List Event} (h : ∀ e ∈ evs, e ≠ .latch false) (n : Nat) (c : Chain) (cut : Bool) :
    (c.abandoned n evs cut).display = c.display := by
  unfold Chain.abandoned
  split <;> exact events_display h n c

theorem observe_reset_display {abandoned evs : List Event} (h : ∀ e ∈ abandoned ++ evs, e ≠ .latch false) (n : Nat)
    (c : Chain) (cut : Bool) : (c.observe n (.reset abandoned cut evs)).display = c.display := by
  obtain ⟨hab, hev⟩ := List.forall_mem_append.1 h
  rw [Chain.observe, foldl_cutEvent_eq_events hev, events_display hev, abandoned_display hab]

/-! A reset in a command (R128(d)) -/

/-- What a reset abandons ends a pulse only if the command did. -/
theorem ne_latch_fall_of_mem_abandoned {s : State} {w : Work} {evs : List Event} (hs : s.seq = .busy w evs)
    (h : ∀ e ∈ evs, e ≠ .latch false) (p : PortsIn) : ∀ e ∈ abandonedEvents p s, e ≠ .latch false := by
  cases hb : txPresented s with
  | none => rwa [abandonedEvents_of_no_byte hs hb]
  | some b =>
    rcases abandoned_of_byte hs hb p with ⟨hab, -⟩ | ⟨hab, -, -⟩ <;> rw [hab]
    · exact List.forall_mem_append.2 ⟨h, List.forall_mem_singleton.2 nofun⟩
    · exact h

/-- With the latch low a reset ends no pulse. -/
theorem ne_latch_fall_of_mem_releaseAll {s : State} (hq : s.latchQ = false) :
    ∀ e ∈ (start s).releaseAll.evs, e ≠ .latch false := by
  intro e he
  rw [releaseAll_evs, hq] at he
  simp only [Bool.false_eq_true, if_false, List.append_nil, List.mem_append, List.mem_ite_nil_right, List.mem_singleton] at he
  rcases he with ⟨-, rfl⟩ | ⟨-, rfl⟩ <;> exact nofun

/-- The reset's events inside a pulse cut it: the chain latches or not, by the free choice. -/
theorem releaseAll_in_pulse_display {s : State} (hq : s.latchQ = true) (n : Nat) (c : Chain) :
    ((start s).releaseAll.evs.foldl (Chain.cutEvent n) c).display =
      if Config.cutPulseLatches c.freeIx = true then c.regs else c.display := by
  have hcut : (c.cutEvent n (.latch false)).display =
      if Config.cutPulseLatches c.freeIx = true then c.regs else c.display := by
    show (if Config.cutPulseLatches c.freeIx then c.commit else { c with pulse := false }).display = _
    split <;> rfl
  rw [releaseAll_evs, hq, ← hcut]
  cases s.latchOe <;> cases s.spiEn <;> rfl

/-- Settles O57: the events of each item by whether they end a pulse. -/
theorem displayChangesOnlyAtALatchPulse : Obligations.DisplayChangesOnlyAtALatchPulse := by
  refine ⟨fun n c evs h => events_display h n c, fun n c abandoned evs cut h => observe_reset_display h n c cut,
    fun n i c cmd s hc => ?_, fun P p n c s w evs hr hs hq h => ?_, fun P p n c s t evs hr hs hq => ?_⟩
  · have hevs := (perform_pixel_frame hc Config.params s).1
    exact ⟨_, _, exec_eq_perform cmd s, by rw [perform_record_trace, hevs], rfl⟩
  · refine ⟨_, clockEdge_reset_trace hr P s, observe_reset_display (List.forall_mem_append.2 ⟨?_, ?_⟩) n c _⟩
    · exact ne_latch_fall_of_mem_abandoned hs h p
    · exact ne_latch_fall_of_mem_releaseAll hq
  · have hb : txPresented s = none := txPresented_of_not_sending (by rw [hs]; exact nofun)
    refine ⟨_, clockEdge_reset_trace hr P s, ?_⟩
    rw [abandonedEvents_of_no_byte hs hb, byteCut_of_no_byte hb]
    exact releaseAll_in_pulse_display hq n (c.events n evs)

end Sys2Proof
end
